-- ==== Sys2Proof/Word.lean ====
section
/-! DEFINITION. The word types of `BAFR` (00_scope.md R105, R106). -/

namespace Sys2Proof

/-- An element of `FB` or `RXQ`, and a byte on the link: 8 bits, bit 0 least significant (R105, R106). -/
abbrev Byte := BitVec 8

/-- The select word `sel`, format `F-SEL` (30_encoding.md R49): `sel[4:2] = phase`, `sel[1] = q`,
`sel[0] = e`. -/
abbrev SelWord := BitVec 5

/-- A colour value, an element of `SL` or `SURF` (30_encoding.md R46). Its width is the parameter
`COLOR_BITS`, so the value is a number; Safety.lean states that it fits the width (log 8). -/
abbrev Color := Nat

end Sys2Proof
end

