-- ==== Sys2Proof/Syntax.lean ====
section
/-! DEFINITION. The ten steps of `BAFR`, one constructor per row of the opcode table
(30_encoding.md R49), and the phase that selects among them (10_state.md R11). -/

namespace Sys2Proof

/-- The ten entries of the operation map (30_encoding.md R49): eight operations of the sequencer
`SEQ` and two environment events. -/
inductive Instr
  /-- `BOOT`: leave Waiting, jointly with the event `BOOTDONE` (42_sequencer.md R70). -/
  | boot
  /-- `FLUSH`: discard every buffered byte and start a read (40_receiver.md R55). -/
  | flush
  /-- `RXBYTE`: take one byte from the queue into the frame buffer (40_receiver.md R56). -/
  | rxbyte
  /-- `RXABANDON`: give up the read, jointly with the event `GAP` (40_receiver.md R57). -/
  | rxabandon
  /-- `CHECK`: compare the byte count with `FRAME_BYTES` (40_receiver.md R58). -/
  | check
  /-- `DECODE`: expand row `y` of the frame into the scanline buffer (41_renderer.md R64). -/
  | decode
  /-- `WRROW`: transfer the scanline buffer to row `y` of the display (41_renderer.md R65). -/
  | wrrow
  /-- `ACK`: emit the acknowledgement byte (40_receiver.md R59). -/
  | ack
  /-- `LINKBYTE(b)`: the byte `b` arrives on the link (40_receiver.md R54). -/
  | linkbyte (b : Byte)
  /-- `RESET`: the external reset (70_reset_and_hazards.md R91). -/
  | reset
deriving DecidableEq, Repr

/-- The register `phase` (10_state.md R11): seven names, and the code 0b111 that names no phase
(30_encoding.md R50). One constructor per value of the three bits. -/
inductive Phase
  | wait
  | flush
  | read
  | check
  | decode
  | write
  | ack
  /-- The reserved code 0b111 (R50): no operation of `SEQ` is enabled and only `RESET` leaves it. -/
  | reserved
deriving DecidableEq, Repr

/-- What the environment decides before one step (42_sequencer.md R73, R78): which agent moves, and
what it offers. -/
inductive Choice
  /-- It is the turn of `SEQ`; `offered` is the bit `e` of the select word: the environment offers
  the event that the present state waits for (`BOOTDONE` in `WAIT`, `GAP` in `READ` with nothing
  buffered; ignored elsewhere, 30_encoding.md R49). -/
  | sequencer (offered : Bool)
  /-- `LINK` delivers the byte `b`. -/
  | linkByte (b : Byte)
  /-- `SETUP` resets the block. -/
  | reset
deriving DecidableEq, Repr, Inhabited

end Sys2Proof
end

