-- ==== Sys2Proof/Config.lean ====
section
/-! DEFINITION. The parameters of a run (00_scope.md R5 to R8) and the free values of the model. -/

namespace Sys2Proof

/-- The bit-level format of one byte on the wire, the parameter `LINE_FORMAT` (00_scope.md R8,
30_encoding.md R51). No step uses it (log 11). -/
structure LineFormat where
  startBits : Nat
  dataBits : Nat
  parityBits : Nat
  stopBits : Nat
  lsbFirst : Bool
deriving DecidableEq, Repr

/-- The parameters of 00_scope.md R5 and R8. They are constants of a run (10_state.md R20). -/
structure Config where
  /-- `W`, the frame width in pixels (R5). -/
  width : Nat
  /-- `H`, the frame height in rows (R5). -/
  height : Nat
  /-- `BAUD`, symbols per second on the link (R5). No step uses it (log 11). -/
  baud : Nat
  /-- `ACK_BYTE` (R5, 30_encoding.md R44). -/
  ackByte : Byte
  /-- `COLOR_BITS` (R8). -/
  colorBits : Nat
  /-- `COLOR_ON`, the colour of a set bit (R8). -/
  colorOn : Color
  /-- `COLOR_OFF`, the colour of a clear bit (R8). -/
  colorOff : Color
  /-- `RX_FIFO_DEPTH` less 1: the depth is at least 1 (R8), so the number above 1 is stored. -/
  rxFifoExtra : Nat
  /-- `RX_TIMEOUT` (R8). No step uses it (log 11). -/
  rxTimeout : Nat
  /-- `LINE_FORMAT` (R8). No step uses it (log 11). -/
  lineFormat : LineFormat
deriving DecidableEq, Repr

/-- `RX_FIFO_DEPTH`, the capacity of `RXQ`, at least 1 (R8, 10_state.md R16). -/
def Config.rxFifoDepth (c : Config) : Nat := c.rxFifoExtra + 1

/-- `ROW_BYTES = W / 8` (R7). -/
def Config.rowBytes (c : Config) : Nat := c.width / 8

/-- `FRAME_BYTES = (W * H) / 8` (R7); the unit is bytes (90_conflicts.md C1). -/
def Config.frameBytes (c : Config) : Nat := c.width * c.height / 8

/-- The search of `ceilLog2`: the first of `k, k + 1, …` with `2 ^ k ≥ n`, looking at `fuel` of them. -/
def ceilLog2From (n : Nat) : Nat → Nat → Nat
  | 0, k => k
  | fuel + 1, k => if n ≤ 2 ^ k then k else ceilLog2From n fuel (k + 1)

/-- `ceil(log2(n))`, the least `k` with `2 ^ k ≥ n` (R105). -/
def ceilLog2 (n : Nat) : Nat := ceilLog2From n n 0

/-- `CNT_BITS`, the width of `rx_count` (R7). -/
def Config.cntBits (c : Config) : Nat := ceilLog2 (c.frameBytes + 1)

/-- `Y_BITS`, the width of `y` (R7). -/
def Config.yBits (c : Config) : Nat := ceilLog2 c.height

/-- Symbols of one byte on the wire under `LINE_FORMAT` (30_encoding.md R51). -/
def Config.symbolsPerByte (c : Config) : Nat :=
  c.lineFormat.startBits + c.lineFormat.dataBits + c.lineFormat.parityBits + c.lineFormat.stopBits

/-- Symbols of one frame on the wire (70_reset_and_hazards.md R103). -/
def Config.frameSymbols (c : Config) : Nat := c.frameBytes * c.symbolsPerByte

/-- FREE VALUE: the environment's choice at moment `clock`, where no choice is fixed by the state
(42_sequencer.md R73, R78; log 2). -/
opaque Config.environment (clock : Nat) : Choice

/-- FREE VALUE: what the surface shows at `(x, y)` after reset number `epoch` and before the first
row write there (10_state.md R22; log 6). -/
opaque Config.surfaceContent (epoch x y : Nat) : Nat

/-- FREE VALUE: `RX_FIFO_DEPTH` less 1 in the reference configuration (00_scope.md R8, OPEN; log 9). -/
opaque Config.openFifoExtra : Nat

/-- FREE VALUE: `RX_TIMEOUT` in the reference configuration (00_scope.md R8, OPEN; log 11). -/
opaque Config.openTimeout : Nat

/-- The reference configuration (R5) with the defaults of R8: the colours and the line format are
PRESUMED, general knowledge in the spec's own words (93_implementation_defined.md G1, G2; logs 8, 11). -/
def Config.reference : Config where
  width := 128
  height := 96
  baud := 921600
  ackByte := 0xAA
  colorBits := 16
  colorOn := 0xFFFF
  colorOff := 0x0000
  rxFifoExtra := Config.openFifoExtra
  rxTimeout := Config.openTimeout
  lineFormat := ⟨1, 8, 0, 1, true⟩

end Sys2Proof
end

