-- ==== Sys2Proof/WellFormed.lean ====
section
/-! DEFINITION. What the spec asks of a configuration (00_scope.md R6, R8) and of an operation. -/

namespace Sys2Proof

/-- R6: "both must be multiples of 8", and both are at least 8. -/
def Config.sizesLegal (c : Config) : Bool :=
  c.width % 8 == 0 && c.height % 8 == 0 && Nat.ble 8 c.width && Nat.ble 8 c.height

/-- R8: `COLOR_ON` and `COLOR_OFF` are different values; R106: each is `COLOR_BITS` wide. -/
def Config.colorsLegal (c : Config) : Bool :=
  c.colorOn != c.colorOff && Nat.blt c.colorOn (2 ^ c.colorBits) && Nat.blt c.colorOff (2 ^ c.colorBits)

/-- The configurations the rules hold for; the model refuses any other (R6; log 17). That
`RX_FIFO_DEPTH` is at least 1 holds by the way it is stored. -/
def Config.legal (c : Config) : Bool := c.sizesLegal && c.colorsLegal

/-- An operation has no operand but the byte of `LINKBYTE`, and "every one of the 256 byte values is
a legal payload byte" (30_encoding.md R42), so every operation is well formed. -/
def Instr.wellFormed : Instr → Bool
  | .boot | .flush | .rxbyte | .rxabandon | .check | .decode | .wrrow | .ack | .reset => true
  | .linkbyte _ => true

end Sys2Proof
end

