-- ==== Sys2Proof/Machine/State.lean ====
section
/-! DEFINITION. The state of `BAFR` (10_state.md), its value after reset (R22), and the names of the
model's faults and refusals. -/

namespace Sys2Proof.Machine

open Sys2Proof

/-- A space of elements, as the (index, value) pairs of the elements that hold a value; an index not
listed holds none. Its canonical form is `Memory.wf` (Ops.lean). -/
abbrev Memory (α : Type) := List (Nat × α)

/-- A display transaction, format `F-DISP` (30_encoding.md R47). -/
structure DispTxn where
  /-- Column of the first pixel written. -/
  x0 : Nat
  /-- Row written. -/
  y0 : Nat
  /-- Number of pixels written. -/
  n : Nat
  /-- The colour values, `row[i]` going to column `x0 + i`. -/
  row : List Color
deriving DecidableEq, Repr

/-- The state: every element of 10_state.md, and four fields of the model's own. -/
structure State where
  /-- The parameters, constants of the run (R20; log 1). The model's own field. -/
  cfg : Config
  /-- `phase` (R11). -/
  phase : Phase
  /-- `rx_count` (R12). -/
  rxCount : Nat
  /-- `y` (R13). -/
  y : Nat
  /-- `FB`, the frame buffer (R14). -/
  fb : List Host.Cell
  /-- `SL`, the scanline buffer (R15). -/
  sl : Memory Color
  /-- `RXQ`, the receive queue, oldest byte first (R16). -/
  rxq : List Byte
  /-- `TXLOG`, the bytes emitted since reset, oldest first (R17). -/
  txlog : List Byte
  /-- `DISPLOG`, the row writes issued since reset, oldest first (R18). -/
  displog : List DispTxn
  /-- `SURF`, the pixels written since reset; `(x, y)` has the index `y * W + x` (R18; log 6). -/
  surf : Memory Color
  /-- How many resets there have been; it selects the free value of `SURF` (log 6). The model's own. -/
  epoch : Nat
  /-- The environment's next choices, as far as they are fixed (log 2). The model's own. -/
  env : List Choice
  /-- The counter of the free choices taken when `env` is empty (log 2). The model's own. -/
  clock : Nat
deriving DecidableEq, Repr

/-- Why a step stops the model. No state that satisfies the invariant of Safety.lean raises one
(10_state.md R21, 42_sequencer.md R71). -/
inductive Fault
  /-- `DECODE` reads an element of `FB` that holds no value ("reading an element that holds no value
  is a fault of the model", R22). Safe: the spec gives such a read no result. -/
  | fbNoValue
  /-- `WRROW` reads an element of `SL` that holds no value (R22). Safe, as `fbNoValue`. -/
  | slNoValue
  /-- `RXBYTE` or `DECODE` forms an index that is not in `0 .. FRAME_BYTES-1` (20_memory.md R24, R30).
  Safe: the element does not exist. -/
  | fbOutOfRange
  /-- `WRROW` names a pixel outside the `W` by `H` surface (R24, R30). Safe: the pixel does not exist. -/
  | surfOutOfRange
deriving DecidableEq, Repr

/-- Why the model says nothing of a step. -/
inductive Refusal
  /-- Raised by an arm of `exec` with no meaning yet; no arm has none. Safe. -/
  | notModelled (mnemonic : String)
  /-- Raised by every operation under a configuration that breaks 00_scope.md R6 or R8: "the model
  refuses it". Safe. -/
  | illegalConfiguration
  /-- Raised by `exec` alone, for an operation of `SEQ` in a state in which 42_sequencer.md R72 does not
  have it; `step` never asks for one (log 4). Safe: there is no such step. -/
  | notEnabled (op : Instr)
deriving DecidableEq, Repr

/-- The state right after reset (R22) under the parameters `c`. `rx_count`, `y`, `RXQ` and the logs
are decision D11 (log 10). -/
def State.resetOf (c : Config) : State where
  cfg := c
  phase := .wait
  rxCount := 0
  y := 0
  fb := []
  sl := []
  rxq := []
  txlog := []
  displog := []
  surf := []
  epoch := 0
  env := []
  clock := 0

/-- The state right after reset (R22) in the reference configuration (00_scope.md R5). -/
def State.reset : State := State.resetOf Config.reference

/-- The outcome of a step of this machine. -/
abbrev Result := Host.Outcome State Fault Refusal

end Sys2Proof.Machine
end

