-- ==== Sys2Proof/Machine/Ops.lean ====
section
/-! DEFINITION. The operations over the spaces and registers, from the primitives of 00_scope.md R106.
The block has no exception to take and none to return from (60_exceptions.md R79, R87); the one
transfer from outside is the reset, `resetBlock`. -/

namespace Sys2Proof.Machine

open Sys2Proof

/-! ## Spaces -/

/-- The element at index `a`, or none where it holds no value. -/
def Memory.read {α : Type} : Memory α → Nat → Option α
  | [], _ => none
  | (k, v) :: m, a => if k = a then some v else Memory.read m a

/-- The pairs of the values `vs` at indices `a`, `a + 1`, … -/
def Memory.cellsFrom {α : Type} : Nat → List α → Memory α
  | _, [] => []
  | a, v :: vs => (a, v) :: Memory.cellsFrom (a + 1) vs

/-- Write the values `vs` at indices `a`, `a + 1`, … -/
def Memory.writeRun {α : Type} (m : Memory α) (a : Nat) (vs : List α) : Memory α :=
  m.filter (fun c => c.1 < a) ++ Memory.cellsFrom a vs ++ m.filter (fun c => a + vs.length ≤ c.1)

/-- Write the value `v` at index `a`. -/
def Memory.write {α : Type} (m : Memory α) (a : Nat) (v : α) : Memory α := Memory.writeRun m a [v]

/-- The `n` values at indices `a`, `a + 1`, …, or none where one of them holds no value. -/
def Memory.readRun {α : Type} (m : Memory α) : Nat → Nat → Option (List α)
  | _, 0 => some []
  | a, n + 1 =>
    match Memory.read m a, Memory.readRun m (a + 1) n with
    | some v, some vs => some (v :: vs)
    | _, _ => none

/-- The canonical form of a space: indices strictly rising. An index not listed holds no value, so no
entry equals what an unlisted index reads as. -/
abbrev Memory.wf {α : Type} (m : Memory α) : Prop := m.Pairwise (fun c d => c.1 < d.1)

/-- Every index of the space is below `n`. -/
abbrev Memory.below {α : Type} (m : Memory α) (n : Nat) : Prop := ∀ c ∈ m, c.1 < n

/-! ## Registers: `r <- v` (R106) -/

/-- `phase <- p`, the control transfer of this block (R106). -/
def State.setPhase (s : State) (p : Phase) : State := { s with phase := p }

/-- `rx_count <- n` (R106). -/
def State.setRxCount (s : State) (n : Nat) : State := { s with rxCount := n }

/-- `y <- n` (R106). -/
def State.setY (s : State) (n : Nat) : State := { s with y := n }

/-- The frame buffer replaced. -/
def State.setFb (s : State) (m : List Host.Cell) : State := { s with fb := m }

/-- The scanline buffer replaced. -/
def State.setSl (s : State) (m : Memory Color) : State := { s with sl := m }

/-- The receive queue replaced. -/
def State.setRxq (s : State) (q : List Byte) : State := { s with rxq := q }

/-! ## The receive queue and the link (R106) -/

/-- `RxFlush()`: `RXQ <- []`. -/
def rxFlush (s : State) : State := s.setRxq []

/-- `RxAvail()`: `|RXQ|`. -/
def rxAvail (s : State) : Nat := s.rxq.length

/-- `RxPop()`: the oldest byte and the state without it; none on an empty queue. -/
def rxPop (s : State) : Option (Byte × State) :=
  match s.rxq with
  | [] => none
  | b :: q => some (b, s.setRxq q)

/-- Arrival of a byte: appended at the tail, or lost when the queue is full (40_receiver.md R54;
the loss is decision D5, log 9). -/
def rxArrive (s : State) (b : Byte) : State :=
  s.setRxq (if rxAvail s < s.cfg.rxFifoDepth then s.rxq ++ [b] else s.rxq)

/-- `TxEmit(b)`: `TXLOG <- TXLOG ++ [b]`; it never blocks (R106; decision D10, log 14). -/
def txEmit (s : State) (b : Byte) : State := { s with txlog := s.txlog ++ [b] }

/-! ## `FB` and `SL` (R106, 20_memory.md R29) -/

/-- `MemWrite(FB, a, 1, b)`; an index outside `0 .. FRAME_BYTES-1` faults (log 18). -/
def fbWrite (s : State) (a : Nat) (b : Byte) : Except Fault State :=
  if a < s.cfg.frameBytes then .ok (s.setFb (Memory.write s.fb a b)) else .error .fbOutOfRange

/-- `MemRead(FB, a + i, 1)` for `i` in `0 .. n-1`: an index outside the space faults (log 18), an
element without a value faults (R22; log 5). -/
def fbReadRun (s : State) (a n : Nat) : Except Fault (List Byte) :=
  if a + n ≤ s.cfg.frameBytes then
    match Memory.readRun s.fb a n with
    | some bs => .ok bs
    | none => .error .fbNoValue
  else .error .fbOutOfRange

/-- `SL[x] <- row[x]` for every element of `row` (41_renderer.md R64). -/
def slWriteRow (s : State) (row : List Color) : State := s.setSl (Memory.writeRun s.sl 0 row)

/-- The `W` elements of `SL` (R29); an element without a value faults (R22; log 5). -/
def slReadRow (s : State) : Except Fault (List Color) :=
  match Memory.readRun s.sl 0 s.cfg.width with
  | some row => .ok row
  | none => .error .slNoValue

/-! ## The display (R106) -/

/-- The index of pixel `(x, y)` in `State.surf`. -/
def surfIndex (c : Config) (x y : Nat) : Nat := y * c.width + x

/-- `DispWriteRow(x0, y0, n, row)`: `SURF[y0][x0+i] <- row[i]` for `i` in `0 .. n-1`, and the
transaction appended to `DISPLOG`. It always completes (41_renderer.md R69, decision D9; log 13); a
pixel outside the surface faults (log 18). -/
def dispWriteRow (s : State) (x0 y0 n : Nat) (row : List Color) : Except Fault State :=
  if y0 < s.cfg.height ∧ x0 + n ≤ s.cfg.width ∧ n ≤ row.length then
    .ok { s with
      surf := Memory.writeRun s.surf (surfIndex s.cfg x0 y0) (row.take n)
      displog := s.displog ++ [⟨x0, y0, n, row⟩] }
  else .error .surfOutOfRange

/-- What the surface shows at `(x, y)`: the colour last written since reset, or any value of
`COLOR_BITS` bits (R22, R106; log 6). No operation of the block calls it: there is no read-back. -/
def surfPixel (s : State) (x y : Nat) : Color :=
  match Memory.read s.surf (surfIndex s.cfg x y) with
  | some c => c
  | none => Config.surfaceContent s.epoch x y % 2 ^ s.cfg.colorBits

/-! ## Reset (70_reset_and_hazards.md R91) -/

/-- The effect of `RESET` on the block: every element at the value of 10_state.md R22. The parameters
and the environment's coming choices are not state of the block and stay (R20; log 24); `SURF` takes
any value afresh. -/
def resetBlock (s : State) : State :=
  { State.resetOf s.cfg with epoch := s.epoch + 1, env := s.env, clock := s.clock }

end Sys2Proof.Machine
end

