-- ==== Sys2Proof/Machine/Operands.lean ====
section
/-! DEFINITION. The operand forms: where a pixel stands in a frame (20_memory.md R25, R26) and which
colour a bit stands for (30_encoding.md R46). No operation has an operand field but `LINKBYTE`; the
others take theirs from `RXQ`, `rx_count` and `y`. -/

namespace Sys2Proof.Machine

open Sys2Proof

/-- `base = y * ROW_BYTES`, the start of the row's packed bytes (41_renderer.md R64). -/
def rowBase (c : Config) (y : Nat) : Nat := y * c.rowBytes

/-- The index in `FB` of the byte that holds pixel `(x, y)` (R25). -/
def byteIndex (c : Config) (x y : Nat) : Nat := rowBase c y + x / 8

/-- The bit that holds column `x` in its byte: bit 7 is the leftmost pixel (R25, R26). -/
def bitIndex (x : Nat) : Nat := 7 - x % 8

/-- `Color(bit)`: `COLOR_ON` for 1, `COLOR_OFF` for 0 (00_scope.md R106). -/
def colorOf (c : Config) (bit : Bool) : Color := if bit then c.colorOn else c.colorOff

/-- The colour of column `x` of a row whose packed bytes are `row` (R64). -/
def columnColor (c : Config) (row : List Byte) (x : Nat) : Color :=
  colorOf c ((row.getD (x / 8) 0).getLsbD (bitIndex x))

/-- The `W` colours of a row whose packed bytes are `row` (R64). -/
def rowColors (c : Config) (row : List Byte) : List Color :=
  (List.range c.width).map (columnColor c row)

/-- The colour of pixel `(x, y)` of the frame held in `m`, or none where its byte holds no value (R25,
R46). -/
def framePixel (c : Config) (m : List Host.Cell) (x y : Nat) : Option Color :=
  (Memory.read m (byteIndex c x y)).map (fun b => colorOf c (b.getLsbD (bitIndex x)))

end Sys2Proof.Machine
end

