-- ==== Sys2Proof/Machine/Flags.lean ====
section
/-! DEFINITION. The conditions the operations test. The block has no flag and no condition code
(10_state.md R19); these are the tests its rules make on the registers and the queue. -/

namespace Sys2Proof.Machine

open Sys2Proof

/-- The bit `q` of the select word: `RXQ` is not empty (30_encoding.md R49). -/
def queueHasByte (s : State) : Bool := !s.rxq.isEmpty

/-- `rx_count = FRAME_BYTES`, the frame-boundary test (40_receiver.md R56, R58). -/
def countComplete (s : State) : Bool := s.rxCount == s.cfg.frameBytes

/-- `y = H-1`: the row just written is the last (41_renderer.md R65). -/
def lastRow (s : State) : Bool := s.y == s.cfg.height - 1

/-- The states in which a step can happen, once the environment offers the event a joint step needs
(30_encoding.md R49, 42_sequencer.md R72). -/
def enabled (i : Instr) (s : State) : Bool :=
  match i with
  | .boot => s.phase == .wait
  | .flush => s.phase == .flush
  | .rxbyte => s.phase == .read && queueHasByte s
  | .rxabandon => s.phase == .read && !queueHasByte s
  | .check => s.phase == .check
  | .decode => s.phase == .decode
  | .wrrow => s.phase == .write
  | .ack => s.phase == .ack
  | .linkbyte _ => true
  | .reset => true

/-- What every operation is under: a legal configuration (00_scope.md R6) and a state that enables it
(R72; log 4). -/
def whenEnabled (i : Instr) (s : State) (r : Result) : Result :=
  if s.cfg.legal then
    if enabled i s then r else .refused (.notEnabled i)
  else .refused .illegalConfiguration

end Sys2Proof.Machine
end

