-- ==== Sys2Proof/Machine/Receiver.lean ====
section
/-! DEFINITION. The Frame Receiver (40_receiver.md): `LINKBYTE`, `FLUSH`, `RXBYTE`, `RXABANDON`,
`CHECK`, `ACK`. -/

namespace Sys2Proof.Machine

open Sys2Proof

/-- `LINKBYTE(b)` (R54). -/
def execLinkbyte (b : Byte) (s : State) : Result := whenEnabled (.linkbyte b) s (.next (rxArrive s b))

/-- `FLUSH` (R55). -/
def execFlush (s : State) : Result :=
  whenEnabled .flush s (.next (((rxFlush s).setRxCount 0).setPhase .read))

/-- The end of `RXBYTE`: the count goes up by one and, when it is complete, the read ends (R56). -/
def countByte (s : State) : State :=
  let t := s.setRxCount (s.rxCount + 1)
  if countComplete t then t.setPhase .check else t

/-- `RXBYTE` (R56). -/
def execRxbyte (s : State) : Result :=
  whenEnabled .rxbyte s
    (match rxPop s with
      | none => .refused (.notEnabled .rxbyte)
      | some (b, t) =>
        match fbWrite t t.rxCount b with
        | .error f => .fault f
        | .ok u => .next (countByte u))

/-- `RXABANDON` (R57). That `GAP` is offered is the bit `e` of the select word that selected it. -/
def execRxabandon (s : State) : Result := whenEnabled .rxabandon s (.next (s.setPhase .check))

/-- `CHECK` (R58). -/
def execCheck (s : State) : Result :=
  whenEnabled .check s
    (.next (if countComplete s then (s.setY 0).setPhase .decode else s.setPhase .flush))

/-- `ACK` (R59). -/
def execAck (s : State) : Result :=
  whenEnabled .ack s (.next ((txEmit s s.cfg.ackByte).setPhase .flush))

end Sys2Proof.Machine
end

