-- ==== Sys2Proof/Machine/Renderer.lean ====
section
/-! DEFINITION. The Frame Renderer (41_renderer.md): `DECODE`, `WRROW`. -/

namespace Sys2Proof.Machine

open Sys2Proof

/-- `DECODE` (R64): the `ROW_BYTES` bytes of row `y` are read once (20_memory.md R29; log 22) and all
`W` elements of `SL` are written. -/
def execDecode (s : State) : Result :=
  whenEnabled .decode s
    (match fbReadRun s (rowBase s.cfg s.y) s.cfg.rowBytes with
      | .error f => .fault f
      | .ok row => .next ((slWriteRow s (rowColors s.cfg row)).setPhase .write))

/-- The end of `WRROW`: the next row, or the acknowledgement after the last (R65). -/
def nextRow (s : State) : State :=
  if lastRow s then (s.setY 0).setPhase .ack else (s.setY (s.y + 1)).setPhase .decode

/-- `WRROW` (R65): one transaction carries the whole row (R68). -/
def execWrrow (s : State) : Result :=
  whenEnabled .wrrow s
    (match slReadRow s with
      | .error f => .fault f
      | .ok row =>
        match dispWriteRow s 0 s.y s.cfg.width row with
        | .error f => .fault f
        | .ok t => .next (nextRow t))

end Sys2Proof.Machine
end

