-- ==== Sys2Proof/Decode.lean ====
section
/-! DEFINITION. The decoder and the encoder (30_encoding.md R48 to R50): the phase code, the select
word and the table of patterns. -/

namespace Sys2Proof

/-- The 3-bit code of a phase, format `F-PHASE` (30_encoding.md R48, R50). -/
def Phase.code : Phase → BitVec 3
  | .wait => 0b000#3
  | .flush => 0b001#3
  | .read => 0b010#3
  | .check => 0b011#3
  | .decode => 0b100#3
  | .write => 0b101#3
  | .ack => 0b110#3
  | .reserved => 0b111#3

/-- The phase of a 3-bit code: the first of the eight whose code it is (R48, R50). -/
def Phase.ofCode (v : BitVec 3) : Phase :=
  if v = 0b000#3 then .wait
  else if v = 0b001#3 then .flush
  else if v = 0b010#3 then .read
  else if v = 0b011#3 then .check
  else if v = 0b100#3 then .decode
  else if v = 0b101#3 then .write
  else if v = 0b110#3 then .ack
  else .reserved

/-- `sel[4:2] = phase`, `sel[1] = q`, `sel[0] = e` (R49). -/
def packSel (p : Phase) (q e : Bool) : SelWord := p.code ++ BitVec.ofBool q ++ BitVec.ofBool e

/-- The field `phase` of a select word, `sel[4:2]` (R49). -/
def selPhase (w : SelWord) : Phase := .ofCode (w.extractLsb' 2 3)

/-- The field `q` of a select word, `sel[1]` (R49). -/
def selQ (w : SelWord) : Bool := w.getLsbD 1

/-- The field `e` of a select word, `sel[0]` (R49). -/
def selE (w : SelWord) : Bool := w.getLsbD 0

/-- A row of the table: an operation of `SEQ`, the bits that are fixed and their values (R49). -/
structure SelRow where
  op : Instr
  mask : SelWord
  pattern : SelWord
deriving DecidableEq, Repr

/-- Whether a select word has the row's pattern. -/
def SelRow.selects (r : SelRow) (w : SelWord) : Bool := w &&& r.mask == r.pattern

/-- The operation map as masks and patterns (R49). `LINKBYTE` and `RESET` are not selected by `sel`
and have no row. -/
def selTable : List SelRow :=
  [⟨.boot, 0b11101#5, 0b00001#5⟩,
   ⟨.flush, 0b11100#5, 0b00100#5⟩,
   ⟨.rxbyte, 0b11110#5, 0b01010#5⟩,
   ⟨.rxabandon, 0b11111#5, 0b01001#5⟩,
   ⟨.check, 0b11100#5, 0b01100#5⟩,
   ⟨.decode, 0b11100#5, 0b10000#5⟩,
   ⟨.wrrow, 0b11100#5, 0b10100#5⟩,
   ⟨.ack, 0b11100#5, 0b11000#5⟩]

/-- Why a signal is no operation. -/
inductive DecodeError
  /-- `000-0`: Waiting, and `BOOTDONE` is not offered (42_sequencer.md R72, first row). -/
  | awaitsBootDone
  /-- `01000`: a read with nothing buffered, and `GAP` is not offered (R72, fourth row). -/
  | awaitsByteOrGap
  /-- `111--`: the reserved phase code (30_encoding.md R50). -/
  | reservedPhase
  /-- A bit above the five of the select word is set (log 21). -/
  | bitsAboveSelect
  /-- Not exactly one byte: there is no longer and no shorter form (30_encoding.md, opening; log 21). -/
  | notOneByte
deriving DecidableEq, Repr

/-- Why a select word with no row selects nothing: the two waiting rows and the reserved code (R49). -/
def selError (w : SelWord) : DecodeError :=
  match selPhase w with
  | .reserved => .reservedPhase
  | .wait => .awaitsBootDone
  | _ => .awaitsByteOrGap

/-- The decoder of the select word: the first row it has the pattern of (R49). -/
def decodeSel (w : SelWord) : Except DecodeError Instr :=
  match selTable.find? (fun r => r.selects w) with
  | some r => .ok r.op
  | none => .error (selError w)

/-- What brings a step about (R49): the select word of `SEQ`, a byte on the inbound link, or the
reset event. -/
inductive Signal
  | select (w : SelWord)
  | link (b : Byte)
  | resetEvent
deriving DecidableEq, Repr

/-- The decoder, total on every signal. Every byte value on the link is a `LINKBYTE` (30_encoding.md
R42); `RESET` is an event with no code. -/
def decode : Signal → Except DecodeError Instr
  | .select w => decodeSel w
  | .link b => .ok (.linkbyte b)
  | .resetEvent => .ok .reset

/-- The decoder on bytes: one byte, the select word in its bits 4 to 0 (log 21). -/
def decodeBytes : List Byte → Except DecodeError Instr
  | [v] => if v.toNat < 32 then decodeSel (v.setWidth 5) else .error .bitsAboveSelect
  | _ => .error .notOneByte

/-- The bytes of an instruction whose `nbits` bits are `w`, bit 0 first, the first byte at the lowest
place; a bit above the last byte makes one more byte, so that no bit is dropped. -/
def tableBytes (nbits w : Nat) : List Byte :=
  let n := max 1 ((nbits + 7) / 8)
  (List.range n).map (fun i => BitVec.ofNat 8 (w / 256 ^ i)) ++
    (if w < 256 ^ n then [] else [BitVec.ofNat 8 (w / 256 ^ n)])

/-- The operation the decoder reads from a word of the opcode table. `LINKBYTE` and `RESET` are not
selected by `sel` (R49), so no word gives them (log 19). -/
def decodeTableWord (nbits w : Nat) : Option Instr := (decodeBytes (tableBytes nbits w)).toOption

/-- The select word of an operation of `SEQ` with every ignored bit 0: its row's pattern (R49). -/
def encodeSel (i : Instr) : Option SelWord := (selTable.find? (fun r => r.op == i)).map (·.pattern)

/-- The encoder: the signal of each step (R49, R40). An operation with no row would get the reserved
code, which no decoder accepts; there is none. -/
def encode : Instr → Signal
  | .linkbyte b => .link b
  | .reset => .resetEvent
  | i => .select ((encodeSel i).getD 0b11100#5)

end Sys2Proof
end

