-- ==== Sys2Proof/Machine/Sequencer.lean ====
section
/-! DEFINITION. The sequencer (42_sequencer.md): `BOOT`, the reset event, and how the next step is
chosen and decoded. -/

namespace Sys2Proof.Machine

open Sys2Proof

/-- `BOOT` (R70). That `BOOTDONE` is offered is the bit `e` of the select word that selected it. -/
def execBoot (s : State) : Result := whenEnabled .boot s (.next (s.setPhase .flush))

/-- `RESET` (70_reset_and_hazards.md R91). -/
def execReset (s : State) : Result := whenEnabled .reset s (.next (resetBlock s))

/-! ## The next step -/

/-- The environment's choice for the next step: the first of `env`, or a free value (R73; log 2). -/
def nextChoice (s : State) : Choice :=
  match s.env with
  | c :: _ => c
  | [] => Config.environment s.clock

/-- The state once that choice is used up: `env` or `clock` moves on, nothing else (log 2). -/
def takeChoice (s : State) : State :=
  match s.env with
  | _ :: cs => { s with env := cs }
  | [] => { s with clock := s.clock + 1 }

/-- The select word of a state and an offer (30_encoding.md R49). -/
def selWord (s : State) (offered : Bool) : SelWord := packSel s.phase (queueHasByte s) offered

/-- The signal that a choice makes in a state (R49). -/
def signalOf (s : State) : Choice → Signal
  | .sequencer offered => .select (selWord s offered)
  | .linkByte b => .link b
  | .reset => .resetEvent

/-- The next step of the state, or why `SEQ` has none (R72). -/
def fetch (s : State) : Except DecodeError Instr := decode (signalOf s (nextChoice s))

/-- A turn of `SEQ` in a state with no operation of `SEQ`: it holds, and nothing of the block changes
(R72: "holds, not stops"; logs 3, 20). -/
def hold (s : State) : Result :=
  if s.cfg.legal then .next s else .refused .illegalConfiguration

/-- The state in which the select word is the low five bits of `w`, `SEQ` to move next: the phase and
the offer of `w`, the queue emptied or given one byte 0 where its bit `q` asks for it (log 23). -/
def placeSelect (s : State) (w : SelWord) : State :=
  { s with
    phase := selPhase w
    rxq := if selQ w then (if queueHasByte s then s.rxq else [0]) else []
    env := .sequencer (selE w) :: s.env }

end Sys2Proof.Machine
end

