-- ==== Sys2Proof/Machine/Dispatch.lean ====
section
/-! DEFINITION. One arm per operation: its meaning. -/

namespace Sys2Proof.Machine

open Sys2Proof

/-- The meaning of each of the ten steps (42_sequencer.md R71). -/
def exec (i : Instr) (s : State) : Host.Outcome State Fault Refusal :=
  match i with
  | .boot => Sys2Proof.Machine.execBoot s
  | .flush => Sys2Proof.Machine.execFlush s
  | .rxbyte => Sys2Proof.Machine.execRxbyte s
  | .rxabandon => Sys2Proof.Machine.execRxabandon s
  | .check => Sys2Proof.Machine.execCheck s
  | .decode => Sys2Proof.Machine.execDecode s
  | .wrrow => Sys2Proof.Machine.execWrrow s
  | .ack => Sys2Proof.Machine.execAck s
  | .linkbyte b => Sys2Proof.Machine.execLinkbyte b s
  | .reset => Sys2Proof.Machine.execReset s

end Sys2Proof.Machine
end

