-- ==== Sys2Proof/Machine/Step.lean ====
section
/-! DEFINITION. One step of the whole system (42_sequencer.md R71 to R73). -/

namespace Sys2Proof.Machine

open Sys2Proof

/-- One step: the environment's choice is taken and the step it selects is run; where `SEQ` has no
operation it holds (R72). -/
def step (s : State) : Host.Outcome State Fault Refusal :=
  match fetch s with
  | .ok i => exec i (takeChoice s)
  | .error _ => hold (takeChoice s)

/-- `s` with the select word `w` in place and the turn with `SEQ` (log 23); a word that is no select
word changes nothing. -/
def State.withFetchWord (s : State) (nbits w : Nat) : State :=
  match tableBytes nbits w with
  | [v] => if v.toNat < 32 then placeSelect s (v.setWidth 5) else s
  | _ => s

end Sys2Proof.Machine
end

