-- ==== Sys2Proof/Machine/Script.lean ====
section
/-! DEFINITION. Runs under given choices (42_sequencer.md R73, R78), stimulus scripts (30_encoding.md R52)
and the eager schedule (42_sequencer.md R75). -/

namespace Sys2Proof.Machine

open Sys2Proof

/-- An item of a stimulus script (R52). -/
inductive ScriptItem
  /-- `B(hh)`. -/
  | byte (b : Byte)
  /-- `GAP`. -/
  | gap
  /-- `BOOTDONE`. -/
  | bootDone
  /-- `RESET`. -/
  | reset
deriving DecidableEq, Repr

/-- One step under the choice `c`. -/
def stepWith (c : Choice) (s : State) : Result := step { s with env := c :: s.env }

/-! ## Runs under given choices (42_sequencer.md R73, R78) -/

/-- The run under the choices `cs`: "given the state and the sequence of environment events …, the run is
unique" (R78). -/
def runChoices : List Choice → State → Result
  | [], s => .next s
  | c :: cs, s =>
    match stepWith c s with
    | .next t => runChoices cs t
    | r => r

/-- The byte that a choice delivers. -/
def arrival : Choice → Option Byte
  | .linkByte b => some b
  | _ => none

/-- The bytes that a row of choices delivers, in the order they arrive. -/
def arrivals (cs : List Choice) : List Byte := cs.filterMap arrival

/-- The operations taken in the run under the choices `cs`, the trace of 30_encoding.md R52; a hold is no
operation. -/
def opsTaken : List Choice → State → List Instr
  | [], _ => []
  | c :: cs, s =>
    match decode (signalOf s c), stepWith c s with
    | .ok i, .next t => i :: opsTaken cs t
    | .error _, .next t => opsTaken cs t
    | _, _ => []

/-! ## The eager schedule (42_sequencer.md R75) -/

/-- An operation of `SEQ` is enabled with nothing offered (R75). -/
def seqReady (s : State) : Bool := (decode (signalOf s (.sequencer false))).toOption.isSome

/-- `SEQ` takes operations until none is enabled, at most `fuel` of them (R75; log 25). -/
def settle : Nat → State → Result
  | 0, s => .next s
  | fuel + 1, s =>
    if seqReady s then
      match stepWith (.sequencer false) s with
      | .next t => settle fuel t
      | r => r
    else .next s

/-- More operations than `SEQ` can take in a row with nothing arriving: a full read, a render, and the
four others of a cycle (30_encoding.md R53; log 25). -/
def settleFuel (c : Config) : Nat := c.frameBytes + 2 * c.height + 8

/-- The item is performed (R75). `BOOTDONE` outside Waiting and `GAP` outside a read with nothing
buffered are no events (42_sequencer.md R70, R72) and do nothing. -/
def perform (i : ScriptItem) (s : State) : Result :=
  match i with
  | .byte b => stepWith (.linkByte b) s
  | .gap => if enabled .rxabandon s then stepWith (.sequencer true) s else .next s
  | .bootDone => if enabled .boot s then stepWith (.sequencer true) s else .next s
  | .reset => stepWith .reset s

/-- A scripted run under the eager schedule (R75). -/
def runScript : List ScriptItem → State → Result
  | [], s => settle (settleFuel s.cfg) s
  | i :: is, s =>
    match settle (settleFuel s.cfg) s with
    | .next t =>
      match perform i t with
      | .next u => runScript is u
      | r => r
    | r => r

/-! ## Abbreviations (30_encoding.md R53) -/

/-- `FRAME(b0, …)` in a script. -/
def scriptFrame (bs : List Byte) : List ScriptItem := bs.map .byte

/-- `FILL(hh, n)` in a script. -/
def scriptFill (b : Byte) (n : Nat) : List ScriptItem := List.replicate n (.byte b)

/-- `RENDER` in a trace: `DECODE, WRROW` repeated `H` times. -/
def renderTrace (c : Config) : List Instr := (List.replicate c.height [.decode, .wrrow]).flatten

/-- `GOODCYCLE` in a trace, without the arrivals that feed it (R53, 40_receiver.md R60). -/
def goodCycle (c : Config) : List Instr :=
  [.flush] ++ List.replicate c.frameBytes .rxbyte ++ [.check] ++ renderTrace c ++ [.ack]

/-- `BADCYCLE(n)` in a trace, without the arrivals (R53, R60). -/
def badCycle (n : Nat) : List Instr := [.flush] ++ List.replicate n .rxbyte ++ [.rxabandon, .check]

/-- The operations of a trace, one after the other. -/
def runTrace : List Instr → State → Result
  | [], s => .next s
  | i :: is, s =>
    match exec i s with
    | .next t => runTrace is t
    | r => r

end Sys2Proof.Machine
end

