-- ==== Sys2Proof/Safety.lean ====
section
/-! DEFINITION. The terms in which claims about the block are stated: its logical states, what can be
observed, the premises about the environment, and the invariants. -/

namespace Sys2Proof.Machine

open Sys2Proof

/-! ## Logical states and observation -/

/-- Waiting (10_state.md R23): "initial, shown as a splash message, entered once at boot". -/
abbrev State.waiting (s : State) : Prop := s.phase = .wait

/-- Streaming (R23): every other phase. -/
abbrev State.streaming (s : State) : Prop := s.phase ≠ .wait

/-- The block waits for a byte with nothing buffered: the fourth row of 42_sequencer.md R72, and the part
of idle-stable that a state alone shows. -/
abbrev State.idle (s : State) : Prop := s.phase = .read ∧ s.rxq = []

/-- An idle-stable state (42_sequencer.md R76): `phase = READ`, `RXQ = []`, and the script of what is to
come has no more `LINKBYTE`. -/
abbrev State.idleStable (s : State) (script : List Choice) : Prop := s.idle ∧ arrivals script = []

/-- The empty bad cycle from an idle-stable state, `n` times (R76). -/
def emptyBadCycles (n : Nat) : List Instr :=
  (List.replicate n [.rxabandon, .check, .flush]).flatten

/-- What the display shows (10_state.md R18): every pixel of `SURF`, row by row. -/
def shownPixels (s : State) : List Color :=
  (List.range s.cfg.height).flatMap (fun y => (List.range s.cfg.width).map (fun x => surfPixel s x y))

/-- What a claim may observe (R76): `TXLOG`, `DISPLOG`, and what `SURF` shows, the pixels not written
since the reset included. -/
structure Observation where
  txlog : List Byte
  displog : List DispTxn
  surf : List Color
deriving DecidableEq, Repr

/-- The observation of a state (R76). -/
def State.observe (s : State) : Observation := ⟨s.txlog, s.displog, shownPixels s⟩

/-- `k` steps of the machine, stopping at the first fault or refusal. -/
def runSteps (k : Nat) (s : State) : Result := Host.Core.run Sys2Proof.core k s

/-! ## Premises about the environment (70_reset_and_hazards.md R102) -/

/-- S2 at the next step: a byte that arrives, arrives in `READ`. -/
abbrev State.premiseS2 (s : State) : Prop := ∀ b, nextChoice s = .linkByte b → s.phase = .read

/-- S5 at the next step: a byte that arrives finds room. -/
abbrev State.premiseS5 (s : State) : Prop :=
  ∀ b, nextChoice s = .linkByte b → rxAvail s < s.cfg.rxFifoDepth

/-- The premises at one choice, `seen` bytes of the frame having arrived: a byte arrives in `READ` (S2),
finds room (S5), and is not one too many (S4); `GAP` is not offered between the first and the last byte of
the frame (S3). No reset: the claim speaks of one frame. S1, S6 and S7 hold by what the model is: one
`Config`, and a display that completes every transaction (log 13). -/
def premisesAt (seen : Nat) (s : State) : Choice → Bool
  | .linkByte _ =>
    s.phase == .read && Nat.blt (rxAvail s) s.cfg.rxFifoDepth && Nat.blt seen s.cfg.frameBytes
  | .sequencer offered =>
    !(offered && enabled .rxabandon s) || seen == 0 || seen == s.cfg.frameBytes
  | .reset => false

/-- The premises at every choice of a schedule, `seen` bytes of the frame having arrived before it. -/
def underPremises : Nat → List Choice → State → Bool
  | _, [], _ => true
  | seen, c :: cs, s =>
    premisesAt seen s c &&
      match stepWith c s with
      | .next t => underPremises (seen + (arrival c).toList.length) cs t
      | _ => false

/-! ## Infinite runs and fairness (42_sequencer.md R73) -/

/-- An infinite run: the choice at each moment and the states it leads through. -/
abbrev IsRun (choices : Nat → Choice) (states : Nat → State) : Prop :=
  ∀ n, stepWith (choices n) (states n) = .next (states (n + 1))

/-- The first `n` choices of an infinite run. -/
def firstChoices (choices : Nat → Choice) (n : Nat) : List Choice := (List.range n).map choices

/-- The three fairness assumptions of R73 on an infinite run. An offered event and the operation it
authorises are one choice of the model, so for `BOOT` and `RXABANDON` the assumptions about the offer are
those about the operation (log 16). -/
structure Fair (choices : Nat → Choice) (states : Nat → State) : Prop where
  /-- 1: an operation of `SEQ` that stays enabled is eventually taken. -/
  sequencer : ∀ (i : Instr) (n : Nat),
    (∀ m, n ≤ m → decodeSel (selWord (states m) false) = .ok i) →
    ∃ m, n ≤ m ∧ ∃ e, choices m = .sequencer e ∧ decodeSel (selWord (states m) e) = .ok i
  /-- 2: `BOOTDONE` is eventually offered to a block that waits for it (after a reset or at the start),
  unless another reset comes first. -/
  bootDone : ∀ n, (states n).waiting →
    ∃ m, n ≤ m ∧ (choices m = .reset ∨ (states m).waiting ∧ choices m = .sequencer true)
  /-- 3: if from some point on the block waits for a byte and none comes, `GAP` is eventually offered. -/
  gap : ∀ n, (∀ m, n ≤ m → (states m).idle ∧ ∀ b, choices m ≠ .linkByte b) →
    ∃ m, n ≤ m ∧ choices m = .sequencer true

/-! ## The graph of `phase` (42_sequencer.md R74) -/

/-- Where each step leads from a state (R74); `LINKBYTE` never changes `phase`. -/
def phaseAfter (s : State) : Instr → Phase
  | .boot => .flush
  | .flush => .read
  | .rxbyte => if s.rxCount + 1 = s.cfg.frameBytes then .check else .read
  | .rxabandon => .check
  | .check => if s.rxCount = s.cfg.frameBytes then .decode else .flush
  | .decode => .write
  | .wrrow => if s.y = s.cfg.height - 1 then .ack else .decode
  | .ack => .flush
  | .linkbyte _ => s.phase
  | .reset => .wait

/-! ## Reading the surface back (41_renderer.md R67) -/

/-- The byte whose bit `7 - j` is `bit j`. -/
def packByte (bit : Nat → Bool) : Byte :=
  BitVec.ofNat 8 ((List.range 8).foldl (fun acc j => 2 * acc + (bit j).toNat) 0)

/-- Byte `k` of the frame decoded from the surface (R67): a pixel is 1 if it shows `COLOR_ON`. -/
def decodedByte (s : State) (k : Nat) : Byte :=
  packByte (fun j =>
    surfPixel s (8 * (k % s.cfg.rowBytes) + j) (k / s.cfg.rowBytes) == s.cfg.colorOn)

/-! ## A frame received (70_reset_and_hazards.md R102) -/

/-- The `n` row writes of a render of the frame in `m`, in the order of the rows (41_renderer.md R66). -/
structure IsRenderLog (c : Config) (m : List Host.Cell) (n : Nat) (log : List DispTxn) : Prop where
  count : log.length = n
  rows : ∀ r < n, ∃ row : List Color, log[r]? = some ⟨0, r, c.width, row⟩ ∧
    row.length = c.width ∧ ∀ x < c.width, row[x]? = framePixel c m x r

/-- Every pixel shows the colour of its bit of the frame in `m` (41_renderer.md R66). -/
abbrev State.showsFrame (s : State) (m : List Host.Cell) : Prop :=
  ∀ r < s.cfg.height, ∀ x < s.cfg.width, some (surfPixel s x r) = framePixel s.cfg m x r

/-- Between `s` and `t` the frame `F` was received, drawn and acknowledged once, and the block waits
again (R102): "`FB` equals `F`, `H` transactions are appended to `DISPLOG`, `SURF` shows `F`, one `ACK_BYTE`
is appended to `TXLOG`, and the block returns to an idle-stable state". -/
structure ReceivedFrame (s : State) (F : List Byte) (t : State) : Prop where
  cfg : t.cfg = s.cfg
  idle : t.idle
  count : t.rxCount = 0
  fb : ∀ k < s.cfg.frameBytes, Memory.read t.fb k = F[k]?
  shows : t.showsFrame t.fb
  rows : ∃ log, t.displog = s.displog ++ log ∧ IsRenderLog s.cfg t.fb s.cfg.height log
  ack : t.txlog = s.txlog ++ [s.cfg.ackByte]

/-! ## Same control, other payload (20_memory.md R38) -/

/-- A choice with its payload forgotten. -/
def choiceShape : Choice → Choice
  | .linkByte _ => .linkByte 0
  | c => c

/-- Two spaces with a value at the same indices. -/
abbrev Memory.sameHeld {α : Type} (m n : Memory α) : Prop :=
  ∀ a, (Memory.read m a).isSome = (Memory.read n a).isSome

/-- Two states that differ at most in the values of bytes, pixels and coming payload. -/
structure State.SameControl (a b : State) : Prop where
  cfg : a.cfg = b.cfg
  phase : a.phase = b.phase
  rxCount : a.rxCount = b.rxCount
  y : a.y = b.y
  fb : Memory.sameHeld a.fb b.fb
  sl : Memory.sameHeld a.sl b.sl
  rxq : a.rxq.length = b.rxq.length
  txlog : a.txlog = b.txlog
  displog : a.displog.length = b.displog.length
  env : a.env.map choiceShape = b.env.map choiceShape
  clock : a.clock = b.clock

/-! ## Invariants (10_state.md R21) -/

/-- The three sparse spaces are in canonical form. -/
structure State.MemoryCanonical (s : State) : Prop where
  fb : Memory.wf s.fb
  sl : Memory.wf s.sl
  surf : Memory.wf s.surf

/-- A frame is being drawn or has just been drawn: `phase` is `DECODE`, `WRITE` or `ACK` (R21 item 2). -/
def State.drawing (s : State) : Bool := s.phase == .decode || s.phase == .write || s.phase == .ack

/-- How many rows of the frame now drawn are already on the display (R21 item 9, R66). -/
def State.rowsDrawn (s : State) : Nat :=
  match s.phase with
  | .decode | .write => s.y
  | .ack => s.cfg.height
  | _ => 0

/-- A colour the block can produce: "exactly two colour values ever occur" (30_encoding.md R46). -/
abbrev isColor (c : Config) (v : Color) : Prop := v = c.colorOn ∨ v = c.colorOff

/-- The invariant of R21 (its items that speak of one state), with what it needs to be kept: the
surface agrees with the frame on the rows already drawn (R66), `y` is 0 outside a render (R76), the
logs count in step (R36), only the two colours occur (R46). -/
structure State.Inv (s : State) : Prop where
  configLegal : s.cfg.legal = true
  memory : s.MemoryCanonical
  /-- Item 1. -/
  phaseNamed : s.phase ≠ .reserved
  /-- Item 2. -/
  countBound : s.rxCount ≤ s.cfg.frameBytes
  countShort : s.phase = .read → s.rxCount < s.cfg.frameBytes
  countFull : s.drawing = true → s.rxCount = s.cfg.frameBytes
  /-- Item 3. -/
  rowBound : s.y < s.cfg.height
  rowIdle : s.phase ≠ .decode → s.phase ≠ .write → s.y = 0
  /-- Item 4. -/
  queueBound : s.rxq.length ≤ s.cfg.rxFifoDepth
  /-- Items 5 and 6: the bytes the read has taken are held. -/
  fbFilled : ∀ i < s.rxCount, (Memory.read s.fb i).isSome = true
  fbInside : Memory.below s.fb s.cfg.frameBytes
  slInside : Memory.below s.sl s.cfg.width
  /-- Item 7. -/
  slRow : s.phase = .write → ∀ x < s.cfg.width, Memory.read s.sl x = framePixel s.cfg s.fb x s.y
  surfInside : Memory.below s.surf (s.cfg.width * s.cfg.height)
  /-- R66, row by row. -/
  surfDrawn : ∀ r < s.rowsDrawn, ∀ x < s.cfg.width,
    Memory.read s.surf (surfIndex s.cfg x r) = framePixel s.cfg s.fb x r
  /-- Item 8. -/
  txAck : ∀ b ∈ s.txlog, b = s.cfg.ackByte
  /-- Item 9, and 41_renderer.md R68: whole rows, in the order of the rows. -/
  dispForm : ∀ t ∈ s.displog, t.x0 = 0 ∧ t.n = s.cfg.width ∧ t.row.length = s.cfg.width
  dispOrder : ∀ k < s.displog.length, (s.displog[k]?).map (·.y0) = some (k % s.cfg.height)
  /-- 20_memory.md R36: `H` transactions per acknowledgement, and those of the frame now drawn. -/
  dispCount : s.displog.length = s.cfg.height * s.txlog.length + s.rowsDrawn
  slColors : ∀ c ∈ s.sl, isColor s.cfg c.2
  surfColors : ∀ c ∈ s.surf, isColor s.cfg c.2
  dispColors : ∀ t ∈ s.displog, ∀ v ∈ t.row, isColor s.cfg v

end Sys2Proof.Machine
end

