-- ==== Sys2Proof/Certificates/Slice0/Obligations.lean ====
section
/-! DEFINITION. The statements for the provers. Rule numbers are those of spec/; "log n" is
notes/assumptions/n.md. A statement about the state after an operation writes the whole next state
out, so what it does not write is unchanged: that is its frame. -/

open Sys2Proof Sys2Proof.Machine

/-! ## Encodings -/

/-- 30_encoding.md R49: every step is well formed, and decoding the signal it is encoded by gives it
back; a byte on the link is always a `LINKBYTE` (R42). -/
def Obligations.EveryStepDecodesFromItsSignal : Prop :=
  (∀ i : Instr, i.wellFormed = true ∧ decode (encode i) = .ok i) ∧
    ∀ b : Byte, decode (.link b) = .ok (.linkbyte b)

/-- 30_encoding.md R49: the patterns `000-1`, `001--`, `0101-`, `01001`, `011--`, `100--`, `101--`,
`110--` over the fields `sel[4:2] = phase`, `sel[1] = q`, `sel[0] = e`, and the patterns that select
nothing. -/
def Obligations.SelectPatternsFollowTheOperationMap : Prop :=
  ∀ (p : Phase) (q e : Bool),
    ((packSel p q e).extractLsb' 2 3 = p.code ∧ (packSel p q e).getLsbD 1 = q ∧
      (packSel p q e).getLsbD 0 = e) ∧
    decodeSel (packSel p q e) =
      match p with
      | .wait => if e then .ok .boot else .error .awaitsBootDone
      | .flush => .ok .flush
      | .read => if q then .ok .rxbyte else if e then .ok .rxabandon else .error .awaitsByteOrGap
      | .check => .ok .check
      | .decode => .ok .decode
      | .write => .ok .wrrow
      | .ack => .ok .ack
      | .reserved => .error .reservedPhase

/-- 30_encoding.md R49: words written out from the patterns decode to their operations; the waiting
words `00010` and `01000` and the reserved `11100` decode to none. -/
def Obligations.WrittenOutWordsDecode : Prop :=
  decodeTableWord 8 0b00001 = some .boot ∧ decodeTableWord 8 0b00111 = some .flush ∧
  decodeTableWord 8 0b01010 = some .rxbyte ∧ decodeTableWord 8 0b01001 = some .rxabandon ∧
  decodeTableWord 8 0b01101 = some .check ∧ decodeTableWord 8 0b10010 = some .decode ∧
  decodeTableWord 8 0b10100 = some .wrrow ∧ decodeTableWord 8 0b11000 = some .ack ∧
  decodeTableWord 8 0b00010 = none ∧ decodeTableWord 8 0b01000 = none ∧
  decodeTableWord 8 0b11100 = none

/-- 30_encoding.md R48: the codes of the seven phases. R50: 0b111 names no phase; the model gives that code
a constructor of its own, `Phase.reserved` (DEDUCED, log 20), and with it codes and constructors are one to
one. -/
def Obligations.PhaseCodesAreOneToOne : Prop :=
  (Phase.wait.code = 0b000 ∧ Phase.flush.code = 0b001 ∧ Phase.read.code = 0b010 ∧
    Phase.check.code = 0b011 ∧ Phase.decode.code = 0b100 ∧ Phase.write.code = 0b101 ∧
    Phase.ack.code = 0b110 ∧ Phase.reserved.code = 0b111) ∧
  (∀ p : Phase, Phase.ofCode p.code = p) ∧ ∀ v : BitVec 3, (Phase.ofCode v).code = v

/-- 30_encoding.md R49, 42_sequencer.md R72: the select word of a state names an operation exactly when
`SEQ` can take it there: its phase, its condition on `RXQ`, and its event offered. -/
def Obligations.SelectWordNamesTheEnabledOperation : Prop :=
  ∀ (s : State) (e : Bool) (i : Instr),
    decodeSel (selWord s e) = .ok i ↔
      (i = .boot ∧ s.phase = .wait ∧ e = true) ∨ (i = .flush ∧ s.phase = .flush) ∨
      (i = .rxbyte ∧ s.phase = .read ∧ 1 ≤ s.rxq.length) ∨
      (i = .rxabandon ∧ s.phase = .read ∧ s.rxq = [] ∧ e = true) ∨
      (i = .check ∧ s.phase = .check) ∨ (i = .decode ∧ s.phase = .decode) ∨
      (i = .wrrow ∧ s.phase = .write) ∨ (i = .ack ∧ s.phase = .ack)

/-- Log 23: a word of the table placed in any state is the one the next step decodes and runs, and
placing it changes the phase and the queue only. -/
def Obligations.PlacedWordRunsNext : Prop :=
  ∀ (s : State) (w : Nat) (i : Instr), decodeTableWord 8 w = some i →
    step (s.withFetchWord 8 w) = exec i (takeChoice (s.withFetchWord 8 w)) ∧
    enabled i (takeChoice (s.withFetchWord 8 w)) = true ∧
    ∃ p q, takeChoice (s.withFetchWord 8 w) = { s with phase := p, rxq := q }

/-! ## The step -/

/-- 42_sequencer.md R71, R73: a step is the operation that the environment's choice selects, run on the
state in which that choice is used up (log 2). -/
def Obligations.StepRunsTheDecodedOperation : Prop :=
  ∀ s : State,
    (∀ e i, nextChoice s = .sequencer e → decodeSel (packSel s.phase (queueHasByte s) e) = .ok i →
      step s = exec i (takeChoice s)) ∧
    (∀ b, nextChoice s = .linkByte b → step s = exec (.linkbyte b) (takeChoice s)) ∧
    (nextChoice s = .reset → step s = exec .reset (takeChoice s)) ∧
    (∀ c cs, s.env = c :: cs → nextChoice s = c ∧ takeChoice s = { s with env := cs }) ∧
    (s.env = [] → nextChoice s = Config.environment s.clock ∧
      takeChoice s = { s with clock := s.clock + 1 })

/-- 42_sequencer.md R72, 30_encoding.md R50: on a turn of `SEQ` in Waiting with no `BOOTDONE`, in a read
with nothing buffered and no `GAP`, or in the reserved phase, nothing of the block changes. That the
turn is a step at all is the model's choice (logs 3, 20). -/
def Obligations.SequencerHoldsWithNothingEnabled : Prop :=
  ∀ (s : State) (e : Bool), s.cfg.legal = true → nextChoice s = .sequencer e →
    (s.phase = .wait ∧ e = false) ∨ (s.phase = .read ∧ s.rxq = [] ∧ e = false) ∨
      s.phase = .reserved →
    step s = .next (takeChoice s)

/-! ## What each operation does -/

/-- 42_sequencer.md R70. That `BOOTDONE` ends Waiting is the spec's decision D3. -/
def Obligations.BootLeavesWaiting : Prop :=
  ∀ s : State, s.cfg.legal = true → s.phase = .wait →
    exec .boot s = .next { s with phase := .flush }

/-- 40_receiver.md R55. That `rx_count` is cleared here is the spec's decision D7. -/
def Obligations.FlushEmptiesTheQueueAndStartsARead : Prop :=
  ∀ s : State, s.cfg.legal = true → s.phase = .flush →
    exec .flush s = .next { s with rxq := [], rxCount := 0, phase := .read }

/-- 40_receiver.md R56: the head of `RXQ` is stored at index `rx_count` and nowhere else; the read ends
when the count is complete. That bytes go into `FB` one by one is the spec's decision D7. -/
def Obligations.RxbyteStoresTheOldestByte : Prop :=
  ∀ (s : State) (b : Byte) (q : List Byte), s.cfg.legal = true → s.phase = .read →
    s.rxq = b :: q → s.rxCount < s.cfg.frameBytes →
    ∃ m, exec .rxbyte s = .next { s with
        rxq := q
        fb := m
        rxCount := s.rxCount + 1
        phase := if s.rxCount + 1 = s.cfg.frameBytes then .check else .read } ∧
      ∀ k, Memory.read m k = if k = s.rxCount then some b else Memory.read s.fb k

/-- 40_receiver.md R57. What `GAP` stands for is the spec's decision D6. -/
def Obligations.RxabandonEndsTheRead : Prop :=
  ∀ s : State, s.cfg.legal = true → s.phase = .read → s.rxq = [] →
    exec .rxabandon s = .next { s with phase := .check }

/-- 40_receiver.md R58: a full count starts a render at row 0, any other count restarts the cycle; `CHECK`
can happen in `phase = CHECK` only. -/
def Obligations.CheckComparesTheCount : Prop :=
  ∀ s : State, s.cfg.legal = true →
    (s.phase = .check →
      (s.rxCount = s.cfg.frameBytes → exec .check s = .next { s with y := 0, phase := .decode }) ∧
      (s.rxCount ≠ s.cfg.frameBytes → exec .check s = .next { s with phase := .flush })) ∧
    (s.phase ≠ .check → ¬ ∃ t, exec .check s = .next t)

/-- 40_receiver.md R59. That emission cannot block is the spec's decision D10 (log 14). -/
def Obligations.AckEmitsOneByte : Prop :=
  ∀ s : State, s.cfg.legal = true → s.phase = .ack →
    exec .ack s = .next { s with txlog := s.txlog ++ [s.cfg.ackByte], phase := .flush }

/-- 40_receiver.md R54: a byte is appended in every phase, or lost when the queue is full. The loss of
the arriving byte is the spec's decision D5 (log 9). -/
def Obligations.LinkbyteIsQueuedOrLost : Prop :=
  ∀ (s : State) (b : Byte), s.cfg.legal = true →
    (s.rxq.length < s.cfg.rxFifoDepth →
      exec (.linkbyte b) s = .next { s with rxq := s.rxq ++ [b] }) ∧
    (s.cfg.rxFifoDepth ≤ s.rxq.length → exec (.linkbyte b) s = .next s)

/-- 41_renderer.md R64: every column of the scanline gets the colour of its bit, bit 7 of a byte being
the leftmost; `DECODE` can happen in `phase = DECODE` only. -/
def Obligations.DecodeExpandsTheRow : Prop :=
  ∀ s : State, s.cfg.legal = true →
    (s.phase = .decode → s.y < s.cfg.height →
      (∀ i < s.cfg.rowBytes, (Memory.read s.fb (s.y * s.cfg.rowBytes + i)).isSome = true) →
      ∃ m, exec .decode s = .next { s with sl := m, phase := .write } ∧
        (∀ x < s.cfg.width, ∃ v : Byte,
          Memory.read s.fb (s.y * s.cfg.rowBytes + x / 8) = some v ∧
          Memory.read m x =
            some (if v.getLsbD (7 - x % 8) then s.cfg.colorOn else s.cfg.colorOff)) ∧
        ∀ x, s.cfg.width ≤ x → Memory.read m x = Memory.read s.sl x) ∧
    (s.phase ≠ .decode → ¬ ∃ t, exec .decode s = .next t)

/-- 41_renderer.md R65: row `y` of the surface shows the scanline and no other pixel changes; one
transaction is appended; then the next row, or the acknowledgement after the last. That `y` goes back to
0 is the spec's decision D7, that the transaction completes is D9 (log 13). -/
def Obligations.WrrowTransfersTheScanline : Prop :=
  ∀ (s : State) (row : List Color), s.cfg.legal = true → s.phase = .write → s.y < s.cfg.height →
    row.length = s.cfg.width → (∀ x < s.cfg.width, Memory.read s.sl x = row[x]?) →
    ∃ m, exec .wrrow s = .next { s with
        surf := m
        displog := s.displog ++ [⟨0, s.y, s.cfg.width, row⟩]
        y := if s.y = s.cfg.height - 1 then 0 else s.y + 1
        phase := if s.y = s.cfg.height - 1 then .ack else .decode } ∧
      (∀ x < s.cfg.width, ∀ r, surfPixel { s with surf := m } x r =
        if r = s.y then row.getD x 0 else surfPixel s x r) ∧
      ∀ k, k < s.y * s.cfg.width ∨ s.y * s.cfg.width + s.cfg.width ≤ k →
        Memory.read m k = Memory.read s.surf k

/-- 70_reset_and_hazards.md R91: in every state. All but `phase <- WAIT` is the spec's decision D11 (log
10); the parameters and the environment's choices stay, `SURF` takes any value afresh (logs 6, 24). -/
def Obligations.ResetRestartsTheBlock : Prop :=
  ∀ s : State, s.cfg.legal = true →
    exec .reset s = .next { s with
      phase := .wait, rxCount := 0, y := 0, rxq := [], txlog := [], displog := [], fb := [],
      sl := [], surf := [], epoch := s.epoch + 1 }

/-- 10_state.md R22: the state after reset, in the reference configuration; no element of `FB` or `SL`
holds a value, a pixel shows a free value. All but the phase is the spec's decision D11 (logs 5, 6, 10); the
16 bits of a pixel are the default of `COLOR_BITS` (00_scope.md R8, PRESUMED, log 8). -/
def Obligations.ResetStateHasTheResetValues : Prop :=
  State.reset.cfg = Config.reference ∧ State.reset.phase = .wait ∧ State.reset.rxCount = 0 ∧
  State.reset.y = 0 ∧ State.reset.rxq = [] ∧ State.reset.txlog = [] ∧ State.reset.displog = [] ∧
  (∀ i, Memory.read State.reset.fb i = none) ∧ (∀ x, Memory.read State.reset.sl x = none) ∧
  ∀ x y, surfPixel State.reset x y = Config.surfaceContent 0 x y % 2 ^ 16

/-! ## Where a step does not complete -/

/-- 42_sequencer.md R72 (log 4): an operation that the state does not enable is refused by name. The
refusal is the model's choice; the spec has no such step. -/
def Obligations.OperationsNotEnabledAreRefused : Prop :=
  ∀ (s : State) (i : Instr), s.cfg.legal = true → enabled i s = false →
    exec i s = .refused (.notEnabled i)

/-- 00_scope.md R6: `W` and `H` are multiples of 8 and at least 8; under a configuration that breaks
this every operation and every step is refused. -/
def Obligations.IllegalSizesAreRefused : Prop :=
  ∀ (s : State) (i : Instr),
    s.cfg.width % 8 ≠ 0 ∨ s.cfg.height % 8 ≠ 0 ∨ s.cfg.width < 8 ∨ s.cfg.height < 8 →
    exec i s = .refused .illegalConfiguration ∧ step s = .refused .illegalConfiguration

/-- 10_state.md R22, 20_memory.md R30: `DECODE` stops on an element that holds no value, and on a row that
does not exist. Neither is reachable (`InvariantStatesNeverStop`); the stops are the model's (logs 5, 18). -/
def Obligations.DecodeFaultsOnMissingBytes : Prop :=
  ∀ s : State, s.cfg.legal = true → s.phase = .decode →
    (∀ i < s.cfg.rowBytes, s.y < s.cfg.height →
      Memory.read s.fb (s.y * s.cfg.rowBytes + i) = none → exec .decode s = .fault .fbNoValue) ∧
    (s.cfg.height ≤ s.y → exec .decode s = .fault .fbOutOfRange)

/-- 10_state.md R22, 20_memory.md R30: `WRROW` stops on an element of `SL` that holds no value, and else on
a row that does not exist. Neither is reachable; the stops are the model's (logs 5, 18). -/
def Obligations.WrrowFaultsOnMissingPixels : Prop :=
  ∀ s : State, s.cfg.legal = true → s.phase = .write →
    (∀ x < s.cfg.width, Memory.read s.sl x = none → exec .wrrow s = .fault .slNoValue) ∧
    ((∀ x < s.cfg.width, (Memory.read s.sl x).isSome = true) → s.cfg.height ≤ s.y →
      exec .wrrow s = .fault .surfOutOfRange)

/-- 20_memory.md R30: `RXBYTE` with a count that is already complete stops, since the element does not
exist. It is not reachable; the stop is the model's (log 18). -/
def Obligations.RxbyteFaultsPastTheFrame : Prop :=
  ∀ s : State, s.cfg.legal = true → s.phase = .read → s.rxq ≠ [] → s.cfg.frameBytes ≤ s.rxCount →
    exec .rxbyte s = .fault .fbOutOfRange

/-! ## Configuration and addresses -/

/-- 00_scope.md R5: the reference values, and that no step changes a parameter. -/
def Obligations.ParametersNeverChange : Prop :=
  (Config.reference.width = 128 ∧ Config.reference.height = 96 ∧ Config.reference.baud = 921600 ∧
    Config.reference.ackByte = 0xAA) ∧
  ∀ s t : State, step s = .next t → t.cfg = s.cfg

/-- 00_scope.md R7: the derived constants; their values in the reference configuration; `FRAME_BYTES =
ROW_BYTES * H`, both divisions exact. The counter widths are the spec's decision D18. -/
def Obligations.DerivedConstantsAreExact : Prop :=
  (Config.reference.rowBytes = 16 ∧ Config.reference.frameBytes = 1536 ∧
    Config.reference.cntBits = 11 ∧ Config.reference.yBits = 7) ∧
  ∀ c : Config, c.legal = true →
    8 * c.rowBytes = c.width ∧ 8 * c.frameBytes = c.width * c.height ∧
      c.frameBytes = c.rowBytes * c.height

/-- 20_memory.md R25: where pixel `(x, y)` is held, that the index is in range, that no two pixels share a
bit, and the six examples of the rule. -/
def Obligations.PixelsHaveTheirOwnBits : Prop :=
  (∀ (c : Config) (m : List Host.Cell) (x y : Nat), c.legal = true → x < c.width → y < c.height →
    framePixel c m x y =
      (Memory.read m (y * c.rowBytes + x / 8)).map
        (fun v => if v.getLsbD (7 - x % 8) then c.colorOn else c.colorOff) ∧
    y * c.rowBytes + x / 8 ≤ c.frameBytes - 1 ∧ bitIndex x ≤ 7 ∧
    ∀ x' y', x' < c.width → y' < c.height → byteIndex c x' y' = byteIndex c x y →
      bitIndex x' = bitIndex x → x' = x ∧ y' = y) ∧
  (let at' := fun x y => (byteIndex Config.reference x y, bitIndex x)
   at' 0 0 = (0, 7) ∧ at' 7 0 = (0, 0) ∧ at' 8 0 = (1, 7) ∧ at' 0 1 = (16, 7) ∧
     at' 100 50 = (812, 3) ∧ at' 127 95 = (1535, 0))

/-- 30_encoding.md R44: the acknowledgement is one byte, `ACK_BYTE`; its bits in the reference
configuration. -/
def Obligations.AcknowledgementFormat : Prop :=
  (∀ s t : State, exec .ack s = .next t → t.txlog = s.txlog ++ [s.cfg.ackByte]) ∧
  (List.range 8).map (fun i => Config.reference.ackByte.getLsbD (7 - i)) =
    [true, false, true, false, true, false, true, false]

/-! ## Invariants -/

/-- 10_state.md R21, R22: the state after reset satisfies the invariant. -/
def Obligations.ResetSatisfiesTheInvariant : Prop := State.reset.Inv

/-- 10_state.md R21, with 20_memory.md R36, 30_encoding.md R46, 41_renderer.md R66 and 42_sequencer.md R76:
every step, of whatever agent, keeps the invariant. -/
def Obligations.EveryStepKeepsTheInvariant : Prop :=
  ∀ s t : State, s.Inv → step s = .next t → t.Inv

/-- 42_sequencer.md R71: "No step faults, no step is refused": from every state that satisfies the
invariant every step, whatever the environment chooses, answers a next state. -/
def Obligations.InvariantStatesNeverStop : Prop :=
  ∀ s : State, s.Inv → ∃ t, step s = .next t

/-- 20_memory.md R24: every step keeps the canonical form of the three spaces, from any state that has
it, reachable or not; the reset state has it. -/
def Obligations.EveryStepKeepsMemoryCanonical : Prop :=
  State.reset.MemoryCanonical ∧
    ∀ s t : State, s.MemoryCanonical → step s = .next t → t.MemoryCanonical

/-- 10_state.md R21: "No counter can overflow its width". The widths are the spec's decision D18 (log 7). -/
def Obligations.CountersFitTheirWidths : Prop :=
  ∀ s : State, s.Inv → s.rxCount < 2 ^ s.cfg.cntBits ∧ s.y < 2 ^ s.cfg.yBits

/-! ## Rules about every step -/

/-- 42_sequencer.md R74: the graph of `phase`, for every operation from every state. -/
def Obligations.PhaseFollowsTheGraph : Prop :=
  ∀ (i : Instr) (s t : State), exec i s = .next t → enabled i s = true ∧ t.phase = phaseAfter s i

/-- 10_state.md R23, 60_exceptions.md R88: Waiting is entered by `RESET` only and left by `BOOT` (which
needs `BOOTDONE` offered) only. -/
def Obligations.WaitingIsEnteredByResetAndLeftByBoot : Prop :=
  ∀ s t : State, step s = .next t →
    (s.streaming → t.waiting → nextChoice s = .reset) ∧
    (s.waiting → t.streaming → nextChoice s = .sequencer true ∧ t.phase = .flush)

/-- 30_encoding.md R45: "no other data is ever sent outbound": a turn of `SEQ` in `phase = ACK` appends
`ACK_BYTE` to `TXLOG`, and every other step but `RESET` leaves it as it is. That the log is empty after a
`RESET` is not of R45: it is 70_reset_and_hazards.md R91, the spec's decision D11 (log 10). -/
def Obligations.NothingElseIsEverSent : Prop :=
  ∀ s t : State, step s = .next t →
    t.txlog =
      match nextChoice s with
      | .sequencer _ => if s.phase = .ack then s.txlog ++ [s.cfg.ackByte] else s.txlog
      | .linkByte _ => s.txlog
      | .reset => []

/-- 41_renderer.md R68, 30_encoding.md R47: a turn of `SEQ` in `phase = WRITE` issues one transaction, the
whole of `SL` at column 0 of row `y`; no other step but `RESET` touches the display. That `x0 = 0` and `n = W`
is the spec's decision D9. The reset clause is 70_reset_and_hazards.md R91: `DISPLOG` is emptied by the spec's
decision D11 (log 10), and `SURF`, which then holds any value, has no written pixel and a new free value, which
is the model's form (log 6). -/
def Obligations.DisplayIsWrittenByWholeRows : Prop :=
  ∀ s t : State, step s = .next t →
    (∀ e, nextChoice s = .sequencer e → s.phase = .write →
      t.epoch = s.epoch ∧ ∃ row : List Color, row.length = s.cfg.width ∧
        (∀ x < s.cfg.width, Memory.read s.sl x = row[x]?) ∧
        t.displog = s.displog ++ [⟨0, s.y, s.cfg.width, row⟩]) ∧
    (nextChoice s ≠ .reset → s.phase ≠ .write ∨ (∃ b, nextChoice s = .linkByte b) →
      t.displog = s.displog ∧ t.surf = s.surf ∧ t.epoch = s.epoch) ∧
    (nextChoice s = .reset → t.displog = [] ∧ t.surf = [] ∧ t.epoch = s.epoch + 1)

/-- 20_memory.md R37: outside a read no step but `RESET` writes `FB`, and no `RXBYTE` can happen; a byte that
arrives then and finds room goes to the tail of `RXQ`, and a `FLUSH` discards all of it. -/
def Obligations.FrameBufferIsFixedOutsideARead : Prop :=
  ∀ s : State, s.phase ≠ .read →
    (¬ ∃ u, exec .rxbyte s = .next u) ∧
    ∀ t, step s = .next t → nextChoice s ≠ .reset →
      t.fb = s.fb ∧
      (∀ b, nextChoice s = .linkByte b → s.rxq.length < s.cfg.rxFifoDepth → t.rxq = s.rxq ++ [b]) ∧
      (∀ e, nextChoice s = .sequencer e → s.phase = .flush → t.rxq = [])

/-- 20_memory.md R35: `RXQ` keeps arrival order: an arriving byte goes to its tail, a turn of `SEQ` in a read
takes its head, and it loses bytes by `FLUSH`, by `RESET`, and when a byte finds it full (the spec's decision
D5) only. -/
def Obligations.QueueKeepsArrivalOrder : Prop :=
  ∀ s t : State, step s = .next t →
    t.rxq =
      match nextChoice s with
      | .sequencer _ =>
        if s.phase = .flush then [] else if s.phase = .read then s.rxq.tail else s.rxq
      | .linkByte b => if s.rxq.length < s.cfg.rxFifoDepth then s.rxq ++ [b] else s.rxq
      | .reset => []

/-- 60_exceptions.md R85, 70_reset_and_hazards.md R95: the two orders of each coincidence with an arrival. With
a `FLUSH`: before it the byte is discarded, after it it is kept. With a `GAP`: once the byte has arrived the read
cannot be abandoned; after the `RXABANDON` the byte stays in `RXQ` until the `FLUSH` of the next cycle discards
it. With an `RXBYTE` that finds room left in the queue: both orders give the same state. The interleaving is the
spec's decision D12 (log 15). -/
def Obligations.ArrivalRacesHaveTwoOutcomes : Prop :=
  ∀ (s : State) (b : Byte), s.cfg.legal = true →
    (s.phase = .flush →
      (∃ t u, exec (.linkbyte b) s = .next t ∧ exec .flush t = .next u ∧ u.rxq = []) ∧
      (∃ t u, exec .flush s = .next t ∧ exec (.linkbyte b) t = .next u ∧ u.rxq = [b])) ∧
    (s.phase = .read → s.rxq = [] →
      (∃ t, exec (.linkbyte b) s = .next t ∧ enabled .rxabandon t = false ∧ enabled .rxbyte t = true) ∧
      (∃ t u, exec .rxabandon s = .next t ∧ exec (.linkbyte b) t = .next u ∧
        u.phase = .check ∧ u.rxq = [b] ∧
        (s.rxCount ≠ s.cfg.frameBytes →
          ∃ v w, exec .check u = .next v ∧ v.rxq = [b] ∧ exec .flush v = .next w ∧ w.rxq = []))) ∧
    (s.phase = .read → s.rxq ≠ [] → s.rxq.length < s.cfg.rxFifoDepth →
      s.rxCount < s.cfg.frameBytes →
      ∃ t u v, exec (.linkbyte b) s = .next t ∧ exec .rxbyte s = .next u ∧
        exec .rxbyte t = .next v ∧ exec (.linkbyte b) u = .next v)

/-- 40_receiver.md R63: no byte that arrives before a `FLUSH` is part of a frame read after it: what the
queue held makes no difference to the state after the `FLUSH`. -/
def Obligations.FlushForgetsTheQueue : Prop :=
  ∀ (s : State) (q : List Byte) (n : Nat), s.cfg.legal = true → s.phase = .flush →
    ∃ t, exec .flush s = .next t ∧ exec .flush { s with rxq := q, rxCount := n } = .next t

/-- 20_memory.md R38, 30_encoding.md R42: the values of the bytes never affect control. Two states that
differ in payload only step to two such states, or both stop. -/
def Obligations.PayloadNeverAffectsControl : Prop :=
  ∀ a b : State, a.SameControl b →
    ((∃ t, step a = .next t) ↔ ∃ u, step b = .next u) ∧
    ∀ t u, step a = .next t → step b = .next u → t.SameControl u

/-- 40_receiver.md R61, 42_sequencer.md R76: no operation but `WRROW`, `ACK` and `RESET` changes what a claim
may observe; in particular none of a bad cycle does. -/
def Obligations.OnlyThreeStepsAreObservable : Prop :=
  ∀ (i : Instr) (s t : State), exec i s = .next t → i ≠ .wrrow → i ≠ .ack → i ≠ .reset →
    t.observe = s.observe ∧ t.surf = s.surf ∧ ∀ x y, surfPixel t x y = surfPixel s x y

/-- 70_reset_and_hazards.md R102: one arrival under S2 and S5 is kept, in the read, at the tail of the queue.
Over every schedule under the premises, with fewer bytes than a frame has so far: the bytes that have arrived are
those taken into `FB`, in order, followed by those in `RXQ` (none is lost), from the first of them on the block
is in one and the same read (none is split), and nothing has been sent or drawn. -/
def Obligations.PremisesKeepEveryByte : Prop :=
  (∀ (s t : State) (b : Byte), step s = .next t → nextChoice s = .linkByte b →
    s.premiseS2 → s.premiseS5 →
    t.phase = .read ∧ t.rxq = s.rxq ++ [b] ∧ t.rxCount = s.rxCount ∧ t.fb = s.fb) ∧
  ∀ (s : State) (cs : List Choice), s.Inv → s.idle → s.rxCount = 0 →
    underPremises 0 cs s = true → (arrivals cs).length < s.cfg.frameBytes →
    ∃ t, runChoices cs s = .next t ∧ t.rxCount ≤ (arrivals cs).length ∧
      (∀ k < t.rxCount, Memory.read t.fb k = (arrivals cs)[k]?) ∧
      t.rxq = (arrivals cs).drop t.rxCount ∧
      (arrivals cs ≠ [] → t.phase = .read) ∧ t.observe = s.observe

/-- 20_memory.md R36: of the steps that are no reset, those and only those that are a turn of `SEQ` in
`phase = ACK` lengthen `TXLOG`; each emits one acknowledgement, and only then is the next cycle begun (its `FLUSH`
is still to come); all `H` rows of the frame are then in `DISPLOG`, in order, and on the surface, and `DISPLOG`
holds `H` transactions for each byte of `TXLOG`. -/
def Obligations.AckComesAfterAllRows : Prop :=
  ∀ s t : State, s.Inv → step s = .next t → nextChoice s ≠ .reset →
    (t.txlog ≠ s.txlog ↔ s.phase = .ack ∧ ∃ e, nextChoice s = .sequencer e) ∧
    (t.txlog ≠ s.txlog →
      t.txlog = s.txlog ++ [s.cfg.ackByte] ∧ t.phase = .flush ∧
      t.displog.length = s.cfg.height * t.txlog.length ∧
      (∀ r < s.cfg.height,
        (t.displog[s.cfg.height * s.txlog.length + r]?).map (·.y0) = some r) ∧
      ∀ r < s.cfg.height, ∀ x < s.cfg.width,
        Memory.read t.surf (surfIndex s.cfg x r) = framePixel s.cfg t.fb x r)

/-! ## Runs -/

/-- 20_memory.md R27: the bytes taken by a read stand in `FB` in the order they arrived, the first at
index 0. -/
def Obligations.ReadStoresBytesInOrder : Prop :=
  ∀ (s : State) (bs more : List Byte) (offers : List Bool) (rest : List Choice),
    s.cfg.legal = true → s.phase = .read → s.rxCount = 0 →
    bs.length ≤ s.cfg.frameBytes → s.rxq = bs ++ more → offers.length = bs.length →
    s.env = offers.map .sequencer ++ rest →
    ∃ m, runSteps bs.length s = .next { s with
        rxq := more
        fb := m
        rxCount := bs.length
        phase := if bs.length = s.cfg.frameBytes then .check else .read
        env := rest } ∧
      ∀ k, Memory.read m k = if k < bs.length then bs[k]? else Memory.read s.fb k

/-- 40_receiver.md R61, 42_sequencer.md R76: a short read followed by a `GAP` is dropped: three turns of
`SEQ` later a new read has started and nothing but the count and the queue's emptiness has changed. -/
def Obligations.ShortReadIsDroppedSilently : Prop :=
  ∀ (s : State) (e f : Bool) (rest : List Choice), s.cfg.legal = true → s.idle →
    s.rxCount < s.cfg.frameBytes →
    s.env = .sequencer true :: .sequencer e :: .sequencer f :: rest →
    runSteps 3 s = .next { s with rxCount := 0, env := rest }

/-- 41_renderer.md R66: `2 * H` turns of `SEQ` after the start of a render every pixel shows its bit of the
frame, `H` transactions stand in `DISPLOG` in row order, and the acknowledgement is next. -/
def Obligations.RenderDrawsTheFrame : Prop :=
  ∀ (s : State) (offers : List Bool) (rest : List Choice), s.cfg.legal = true →
    s.phase = .decode → s.y = 0 →
    (∀ k < s.cfg.frameBytes, (Memory.read s.fb k).isSome = true) →
    offers.length = 2 * s.cfg.height → s.env = offers.map .sequencer ++ rest →
    ∃ (m m' : Memory Color) (log : List DispTxn),
      runSteps (2 * s.cfg.height) s = .next { s with
        phase := .ack, y := 0, sl := m, surf := m', displog := s.displog ++ log, env := rest } ∧
      { s with surf := m' }.showsFrame s.fb ∧ IsRenderLog s.cfg s.fb s.cfg.height log

/-- 41_renderer.md R67: once a frame is drawn, the frame decoded from the surface is the frame in `FB`,
byte for byte. -/
def Obligations.DrawnFrameReadsBackExactly : Prop :=
  ∀ s : State, s.Inv → s.phase = .ack →
    ∀ k < s.cfg.frameBytes, Memory.read s.fb k = some (decodedByte s k)

/-- 70_reset_and_hazards.md R102, 40_receiver.md R60: from an idle block a frame `F`, each byte followed by a
turn of `SEQ`, and then `2 * H + 3` turns, is received, drawn and acknowledged once, and the block is idle again
(idle-stable, if `rest` has no byte). This is one schedule, without an idle turn;
`PremisedSchedulesAreOneGoodCycle` is about every schedule that meets the premises. -/
def Obligations.OneFrameIsOneGoodCycle : Prop :=
  ∀ (s : State) (F : List Byte) (rest : List Choice), s.Inv → s.idle → s.rxCount = 0 →
    F.length = s.cfg.frameBytes →
    s.env = F.flatMap (fun b => [.linkByte b, .sequencer false]) ++
      (List.replicate (2 * s.cfg.height + 3) (.sequencer false) ++ rest) →
    ∃ t, runSteps (2 * F.length + (2 * s.cfg.height + 3)) s = .next t ∧
      ReceivedFrame s F t ∧ t.Inv ∧ t.env = rest

/-- 40_receiver.md R60, 30_encoding.md R53: a good cycle has `FRAME_BYTES + 2 * H + 3` operations, 1731 in the
reference configuration. After its `FLUSH`, with the frame in the queue, its operations store the frame, draw it,
append `H` transactions to `DISPLOG` and one byte to `TXLOG`, and end in `phase = FLUSH`. With `n` bytes taken from
a queue that holds exactly those, a bad cycle ends there too, with the bytes in `FB` and nothing appended. -/
def Obligations.CyclesHaveTheirShape : Prop :=
  (∀ c : Config, (goodCycle c).length = c.frameBytes + 2 * c.height + 3) ∧
  (goodCycle Config.reference).length = 1731 ∧
  (∀ (s : State) (F : List Byte), s.cfg.legal = true → s.phase = .read → s.rxCount = 0 →
    s.rxq = F → F.length = s.cfg.frameBytes →
    ∃ m m' m'' log, runTrace ((goodCycle s.cfg).tail) s = .next { s with
        rxq := [], fb := m, rxCount := F.length, y := 0, sl := m', surf := m''
        displog := s.displog ++ log, txlog := s.txlog ++ [s.cfg.ackByte], phase := .flush } ∧
      (∀ k, Memory.read m k = if k < F.length then F[k]? else Memory.read s.fb k) ∧
      { s with surf := m'' }.showsFrame m ∧ IsRenderLog s.cfg m s.cfg.height log) ∧
  ∀ (s : State) (bs : List Byte), s.cfg.legal = true → s.phase = .read → s.rxCount = 0 →
    s.rxq = bs → bs.length < s.cfg.frameBytes →
    ∃ m, runTrace ((badCycle bs.length).tail) s = .next { s with
        rxq := [], fb := m, rxCount := bs.length, phase := .flush } ∧
      ∀ k, Memory.read m k = if k < bs.length then bs[k]? else Memory.read s.fb k

/-- 70_reset_and_hazards.md R92, 42_sequencer.md R75: after a reset the script `BOOTDONE` under the eager
schedule leads to the first read, with nothing sent and nothing drawn. The eager schedule is the spec's decision
D16, and that the model's run of it is bounded is DEDUCED (log 25); the state after reset is decision D11 (log
10). -/
def Obligations.BootScriptStartsTheFirstRead : Prop :=
  ∀ c : Config, c.legal = true →
    runScript [.bootDone] (State.resetOf c) = .next { State.resetOf c with phase := .read }

/-! ## Runs under any schedule -/

/-- 42_sequencer.md R78: a run under given choices is the run of the machine whose coming choices are those (log
2), step by step and stop by stop. -/
def Obligations.ChoicesInTheStateGiveTheSameRun : Prop :=
  ∀ (cs : List Choice) (s : State),
    runChoices cs s = runSteps cs.length { s with env := cs ++ s.env }

/-- 42_sequencer.md R76: from an idle-stable state the only runs without a reset are repetitions of the empty bad
cycle `RXABANDON, CHECK, FLUSH`, cut off anywhere; they change `phase` and the count only, nothing that can be
observed, and whole cycles lead back to the same state, with the count 0. That a claim is stated at such states is
the spec's decision D19. -/
def Obligations.IdleStableRunsAreEmptyBadCycles : Prop :=
  ∀ (s : State) (cs : List Choice), s.cfg.legal = true → s.idleStable cs →
    s.rxCount < s.cfg.frameBytes → Choice.reset ∉ cs →
    ∃ t, runChoices cs s = .next t ∧ t = { s with phase := t.phase, rxCount := t.rxCount } ∧
      t.observe = s.observe ∧ (∃ n, opsTaken cs s <+: emptyBadCycles n) ∧
      ∀ n, opsTaken cs s = emptyBadCycles n →
        t = { s with rxCount := if n = 0 then s.rxCount else 0 }

/-- 70_reset_and_hazards.md R102: from an idle block, every schedule that meets the premises and delivers the bytes
of one frame, in whatever interleaving, runs without a stop, sends at most one acknowledgement, and wherever it
leaves the block idle, the frame has been received, drawn and acknowledged once. -/
def Obligations.PremisedSchedulesAreOneGoodCycle : Prop :=
  ∀ (s : State) (cs : List Choice), s.Inv → s.idle → s.rxCount = 0 →
    underPremises 0 cs s = true → (arrivals cs).length = s.cfg.frameBytes →
    ∃ t, runChoices cs s = .next t ∧ t.Inv ∧
      (t.txlog = s.txlog ∨ t.txlog = s.txlog ++ [s.cfg.ackByte]) ∧
      (t.idle → ReceivedFrame s (arrivals cs) t)

/-- 42_sequencer.md R73, R77: in a fair run that is reset no more the flush-and-retry cycle "eventually runs
again", from every moment on: whatever the sender does, another `FLUSH` comes. Fairness is the spec's decision D17
(log 16). -/
def Obligations.FairRunsFlushForEver : Prop :=
  ∀ (choices : Nat → Choice) (states : Nat → State), IsRun choices states → Fair choices states →
    (states 0).Inv → ∀ n, (∀ m, n ≤ m → choices m ≠ .reset) →
    ∃ m, n ≤ m ∧ (states m).phase = .flush ∧ ∃ e, choices m = .sequencer e

/-- 70_reset_and_hazards.md R102 with 42_sequencer.md R73: in a fair run from an idle block under the premises, a
frame that is sent is at last received, drawn and acknowledged, once, and nothing that can be observed changes
after that. Fairness is the spec's decision D17 (log 16). -/
def Obligations.FairRunsReceiveTheFrame : Prop :=
  ∀ (choices : Nat → Choice) (states : Nat → State) (n : Nat), IsRun choices states →
    Fair choices states → (states 0).Inv → (states 0).idle → (states 0).rxCount = 0 →
    (∀ k, premisesAt (arrivals (firstChoices choices k)).length (states k) (choices k) = true) →
    (arrivals (firstChoices choices n)).length = (states 0).cfg.frameBytes →
    ∃ m, n ≤ m ∧ ReceivedFrame (states 0) (arrivals (firstChoices choices n)) (states m) ∧
      ∀ k, m ≤ k → (states k).observe = (states m).observe
end

