-- ==== Sys2Proof/Laws/Config.lean ====
section
/-! SUPPORT. The arithmetic of a legal configuration (00_scope.md R6, R7) and of the pixel indices
(20_memory.md R25). -/

namespace Sys2Proof.Machine

open Sys2Proof

theorem legal_iff (c : Config) : c.legal = true ↔
    (c.width % 8 = 0 ∧ c.height % 8 = 0 ∧ 8 ≤ c.width ∧ 8 ≤ c.height) ∧
      c.colorOn ≠ c.colorOff ∧ c.colorOn < 2 ^ c.colorBits ∧ c.colorOff < 2 ^ c.colorBits := by
  simp [Config.legal, Config.sizesLegal, Config.colorsLegal, Nat.ble_eq, Nat.blt_eq, and_assoc]

variable {c : Config}

/-- R6, R7: a row is `ROW_BYTES` whole bytes. -/
theorem width_eq (h : c.legal = true) : c.width = 8 * c.rowBytes := by
  have := ((legal_iff c).mp h).1
  unfold Config.rowBytes; omega

theorem rowBytes_pos (h : c.legal = true) : 0 < c.rowBytes := by
  have := ((legal_iff c).mp h).1
  unfold Config.rowBytes; omega

theorem height_pos (h : c.legal = true) : 0 < c.height := by
  have := ((legal_iff c).mp h).1
  omega

theorem width_pos (h : c.legal = true) : 0 < c.width := by
  have := ((legal_iff c).mp h).1
  omega

/-- R7: `FRAME_BYTES = ROW_BYTES * H`. -/
theorem frameBytes_eq (h : c.legal = true) : c.frameBytes = c.rowBytes * c.height := by
  rw [Config.frameBytes, width_eq h, Nat.mul_assoc, Nat.mul_div_cancel_left _ (by omega)]

theorem frameBytes_pos (h : c.legal = true) : 0 < c.frameBytes := by
  rw [frameBytes_eq h]; exact Nat.mul_pos (rowBytes_pos h) (height_pos h)

/-- R25: the bytes of a row of the frame are bytes of the frame. -/
theorem row_inside (h : c.legal = true) {y : Nat} (hy : y < c.height) :
    rowBase c y + c.rowBytes ≤ c.frameBytes := by
  rw [frameBytes_eq h, rowBase, ← Nat.succ_mul, Nat.mul_comm c.rowBytes]
  exact Nat.mul_le_mul_right _ hy

theorem column_inside (h : c.legal = true) {x : Nat} (hx : x < c.width) : x / 8 < c.rowBytes := by
  have := width_eq h; omega

/-- R25: "the index is always in range". -/
theorem byteIndex_lt (h : c.legal = true) {x y : Nat} (hx : x < c.width) (hy : y < c.height) :
    byteIndex c x y < c.frameBytes := by
  have := row_inside h hy
  have := column_inside h hx
  unfold byteIndex; omega

/-- A pixel's index lies in the run of row `r` exactly when its row is `r`. -/
theorem surfIndex_in_row {x y r : Nat} (hx : x < c.width) :
    (surfIndex c 0 r ≤ surfIndex c x y ∧ surfIndex c x y < surfIndex c 0 r + c.width) ↔ y = r := by
  simp only [surfIndex, Nat.add_zero]
  constructor
  · rintro ⟨h1, h2⟩
    rcases Nat.lt_trichotomy y r with h | h | h
    · have : (y + 1) * c.width ≤ r * c.width := Nat.mul_le_mul_right _ h
      rw [Nat.succ_mul] at this; omega
    · exact h
    · have : (r + 1) * c.width ≤ y * c.width := Nat.mul_le_mul_right _ h
      rw [Nat.succ_mul] at this; omega
  · rintro rfl; omega

theorem surfIndex_lt {x y : Nat} (hx : x < c.width) (hy : y < c.height) :
    surfIndex c x y < c.width * c.height := by
  have : (y + 1) * c.width ≤ c.height * c.width := Nat.mul_le_mul_right _ hy
  rw [Nat.succ_mul] at this
  rw [Nat.mul_comm c.width]; unfold surfIndex; omega

@[simp] theorem rowColors_length (row : List Byte) : (rowColors c row).length = c.width := by
  simp [rowColors]

theorem rowColors_getElem? (row : List Byte) {x : Nat} (hx : x < c.width) :
    (rowColors c row)[x]? = some (columnColor c row x) := by
  simp [rowColors, hx]

/-- The colour of a pixel of the frame is the colour of its column in the bytes of its row (R25, R64). -/
theorem framePixel_of_row {m : List Host.Cell} {row : List Byte} {x y : Nat}
    (hl : row.length = c.rowBytes)
    (hr : ∀ i, i < c.rowBytes → Memory.read m (rowBase c y + i) = row[i]?) (hx : x / 8 < c.rowBytes) :
    framePixel c m x y = some (columnColor c row x) := by
  have hlt : x / 8 < row.length := by omega
  simp [framePixel, byteIndex, hr _ hx, columnColor, List.getD, hlt]

theorem colorOf_isOne (bit : Bool) : colorOf c bit = c.colorOn ∨ colorOf c bit = c.colorOff := by
  cases bit <;> simp [colorOf]

end Sys2Proof.Machine
end

