-- ==== Sys2Proof/Laws/Memory.lean ====
section
/-! SUPPORT. The laws of the spaces: read after write, the canonical form, runs of elements. -/

namespace Sys2Proof.Machine

open Sys2Proof

variable {α : Type}

@[simp] theorem Memory.read_nil (a : Nat) : Memory.read ([] : Memory α) a = none := rfl

theorem Memory.read_append (m n : Memory α) (a : Nat) :
    Memory.read (m ++ n) a = (Memory.read m a).or (Memory.read n a) := by
  induction m with
  | nil => simp
  | cons c m ih =>
    obtain ⟨k, v⟩ := c
    by_cases h : k = a <;> simp [Memory.read, h, ih]

/-- Keeping the cells whose index satisfies `p` keeps what is read there and nothing else. -/
theorem Memory.read_filter (m : Memory α) (p : Nat → Bool) (a : Nat) :
    Memory.read (m.filter (fun c => p c.1)) a = if p a then Memory.read m a else none := by
  induction m with
  | nil => simp
  | cons c m ih =>
    obtain ⟨k, v⟩ := c
    by_cases hk : k = a
    · subst hk
      by_cases hp : p k <;> simp_all [Memory.read]
    · by_cases hp : p k <;> simp [Memory.read, hp, hk, ih]

theorem Memory.read_cellsFrom (a : Nat) (vs : List α) (k : Nat) :
    Memory.read (Memory.cellsFrom a vs) k = if a ≤ k then vs[k - a]? else none := by
  induction vs generalizing a with
  | nil => simp [Memory.cellsFrom]
  | cons v vs ih =>
    simp only [Memory.cellsFrom, Memory.read, ih]
    by_cases h : a = k
    · simp [h]
    · by_cases hle : a ≤ k
      · have h1 : a + 1 ≤ k := by omega
        have h2 : k - a = (k - (a + 1)) + 1 := by omega
        simp [h, hle, h1, h2]
      · have h1 : ¬a + 1 ≤ k := by omega
        simp [h, hle, h1]

/-- Read after write: the values written inside the run, what was there before outside it. -/
theorem Memory.read_writeRun (m : Memory α) (a : Nat) (vs : List α) (k : Nat) :
    Memory.read (Memory.writeRun m a vs) k =
      if a ≤ k ∧ k < a + vs.length then vs[k - a]? else Memory.read m k := by
  have hf1 := Memory.read_filter m (fun i => decide (i < a)) k
  have hf2 := Memory.read_filter m (fun i => decide (a + vs.length ≤ i)) k
  simp only [Memory.writeRun, Memory.read_append, Memory.read_cellsFrom, hf1, hf2]
  by_cases h1 : a ≤ k
  · have h1' : ¬k < a := by omega
    by_cases h2 : k < a + vs.length
    · have h3 : ¬a + vs.length ≤ k := by omega
      simp [h1, h1', h2, h3]
    · have h3 : a + vs.length ≤ k := by omega
      have h4 : vs[k - a]? = none := List.getElem?_eq_none (by omega)
      simp [h1, h1', h2, h3, h4]
  · have h1' : k < a := by omega
    have h3 : ¬a + vs.length ≤ k := by omega
    simp [h1, h1', h3]

theorem Memory.read_write (m : Memory α) (a : Nat) (v : α) (k : Nat) :
    Memory.read (Memory.write m a v) k = if k = a then some v else Memory.read m k := by
  rw [Memory.write, Memory.read_writeRun]
  by_cases h : k = a
  · simp [h]
  · rw [if_neg h, if_neg]
    simp only [List.length_singleton]; omega

/-- The cells of a run are in canonical form and lie inside it. -/
theorem Memory.mem_cellsFrom {a : Nat} {vs : List α} {c : Nat × α} (h : c ∈ Memory.cellsFrom a vs) :
    a ≤ c.1 ∧ c.1 < a + vs.length ∧ c.2 ∈ vs := by
  induction vs generalizing a with
  | nil => simp [Memory.cellsFrom] at h
  | cons v vs ih =>
    simp only [Memory.cellsFrom, List.mem_cons] at h
    rcases h with rfl | h
    · simp
    · obtain ⟨h1, h2, h3⟩ := ih h
      simp only [List.length_cons, List.mem_cons]
      exact ⟨by omega, by omega, .inr h3⟩

theorem Memory.cellsFrom_wf (a : Nat) (vs : List α) : Memory.wf (Memory.cellsFrom a vs) := by
  induction vs generalizing a with
  | nil => simp [Memory.cellsFrom]
  | cons v vs ih =>
    refine List.pairwise_cons.mpr ⟨fun c hc => ?_, ih (a + 1)⟩
    have := (Memory.mem_cellsFrom hc).1
    simp only; omega

/-- Every write keeps the canonical form. -/
theorem Memory.writeRun_wf {m : Memory α} (h : Memory.wf m) (a : Nat) (vs : List α) :
    Memory.wf (Memory.writeRun m a vs) := by
  unfold Memory.writeRun
  refine List.pairwise_append.mpr ⟨List.pairwise_append.mpr
    ⟨h.filter _, Memory.cellsFrom_wf a vs, ?_⟩, h.filter _, ?_⟩
  · intro c hc d hd
    have := (Memory.mem_cellsFrom hd).1
    have hc' := (List.mem_filter.mp hc).2
    simp only [decide_eq_true_eq] at hc'
    omega
  · intro c hc d hd
    have hd' := (List.mem_filter.mp hd).2
    simp only [decide_eq_true_eq] at hd'
    rcases List.mem_append.mp hc with hc | hc
    · have hc' := (List.mem_filter.mp hc).2
      simp only [decide_eq_true_eq] at hc'
      omega
    · have := (Memory.mem_cellsFrom hc).2.1
      omega

theorem Memory.write_wf {m : Memory α} (h : Memory.wf m) (a : Nat) (v : α) :
    Memory.wf (Memory.write m a v) := Memory.writeRun_wf h a [v]

/-- A cell of a written space is a new one of the run or an old one. -/
theorem Memory.mem_writeRun {m : Memory α} {a : Nat} {vs : List α} {c : Nat × α}
    (h : c ∈ Memory.writeRun m a vs) :
    (a ≤ c.1 ∧ c.1 < a + vs.length ∧ c.2 ∈ vs) ∨ c ∈ m := by
  rcases List.mem_append.mp h with h | h
  · rcases List.mem_append.mp h with h | h
    · exact .inr (List.mem_of_mem_filter h)
    · exact .inl (Memory.mem_cellsFrom h)
  · exact .inr (List.mem_of_mem_filter h)

theorem Memory.writeRun_below {m : Memory α} {n : Nat} (h : Memory.below m n) {a : Nat} {vs : List α}
    (ha : a + vs.length ≤ n) : Memory.below (Memory.writeRun m a vs) n := by
  intro c hc
  rcases Memory.mem_writeRun hc with ⟨_, h2, _⟩ | hc
  · omega
  · exact h c hc

/-- A run of elements is read exactly when each holds a value, and then these are the values. -/
theorem Memory.readRun_eq_some (m : Memory α) (a n : Nat) (vs : List α) :
    Memory.readRun m a n = some vs ↔
      vs.length = n ∧ ∀ i, i < n → Memory.read m (a + i) = vs[i]? := by
  induction n generalizing a vs with
  | zero =>
    simp only [Memory.readRun, Option.some.injEq]
    constructor
    · rintro rfl; simp
    · rintro ⟨h, -⟩; exact (List.length_eq_zero_iff.mp h).symm
  | succ n ih =>
    simp only [Memory.readRun]
    constructor
    · intro h
      split at h
      · rename_i v ws hv hws
        cases h
        obtain ⟨hl, hr⟩ := (ih (a + 1) ws).mp hws
        refine ⟨by simp [hl], fun i hi => ?_⟩
        cases i with
        | zero => simpa using hv
        | succ i =>
          have := hr i (by omega)
          rw [show a + (i + 1) = a + 1 + i by omega, this]
          simp
      · simp at h
    · rintro ⟨hl, hr⟩
      cases vs with
      | nil => simp at hl
      | cons v ws =>
        have h0 := hr 0 (by omega)
        have hws := (ih (a + 1) ws).mpr ⟨by simpa using hl, fun i hi => by
          have := hr (i + 1) (by omega)
          rw [show a + (i + 1) = a + 1 + i by omega] at this
          simpa using this⟩
        simp only [Nat.add_zero, List.getElem?_cons_zero] at h0
        simp [h0, hws]

/-- A run can be read when each of its elements holds a value. -/
theorem Memory.readRun_isSome (m : Memory α) (a n : Nat)
    (h : ∀ i, i < n → (Memory.read m (a + i)).isSome = true) :
    ∃ vs, Memory.readRun m a n = some vs := by
  induction n generalizing a with
  | zero => exact ⟨[], rfl⟩
  | succ n ih =>
    obtain ⟨v, hv⟩ := Option.isSome_iff_exists.mp (h 0 (by omega))
    obtain ⟨vs, hvs⟩ := ih (a + 1) (fun i hi => by
      have := h (i + 1) (by omega)
      rwa [show a + (i + 1) = a + 1 + i by omega] at this)
    exact ⟨v :: vs, by simp only [Nat.add_zero] at hv; simp [Memory.readRun, hv, hvs]⟩

/-- A run cannot be read when one of its elements holds no value. -/
theorem Memory.readRun_eq_none (m : Memory α) (a n i : Nat) (hi : i < n)
    (h : Memory.read m (a + i) = none) : Memory.readRun m a n = none := by
  cases hr : Memory.readRun m a n with
  | none => rfl
  | some vs =>
    obtain ⟨hl, hv⟩ := (Memory.readRun_eq_some m a n vs).mp hr
    rw [hv i hi] at h
    rw [List.getElem?_eq_none_iff] at h
    omega

end Sys2Proof.Machine
end

