-- ==== Sys2Proof/Laws/State.lean ====
section
/-! SUPPORT. One lemma per field per named update of the state, so that no later proof unfolds one. -/

namespace Sys2Proof.Machine

open Sys2Proof

/-! ### `setPhase` -/

@[simp] theorem State.setPhase_cfg (s : State) (p : Phase) : (s.setPhase p).cfg = s.cfg := rfl
@[simp] theorem State.setPhase_phase (s : State) (p : Phase) : (s.setPhase p).phase = p := rfl
@[simp] theorem State.setPhase_rxCount (s : State) (p : Phase) : (s.setPhase p).rxCount = s.rxCount := rfl
@[simp] theorem State.setPhase_y (s : State) (p : Phase) : (s.setPhase p).y = s.y := rfl
@[simp] theorem State.setPhase_fb (s : State) (p : Phase) : (s.setPhase p).fb = s.fb := rfl
@[simp] theorem State.setPhase_sl (s : State) (p : Phase) : (s.setPhase p).sl = s.sl := rfl
@[simp] theorem State.setPhase_rxq (s : State) (p : Phase) : (s.setPhase p).rxq = s.rxq := rfl
@[simp] theorem State.setPhase_txlog (s : State) (p : Phase) : (s.setPhase p).txlog = s.txlog := rfl
@[simp] theorem State.setPhase_displog (s : State) (p : Phase) : (s.setPhase p).displog = s.displog := rfl
@[simp] theorem State.setPhase_surf (s : State) (p : Phase) : (s.setPhase p).surf = s.surf := rfl
@[simp] theorem State.setPhase_epoch (s : State) (p : Phase) : (s.setPhase p).epoch = s.epoch := rfl
@[simp] theorem State.setPhase_env (s : State) (p : Phase) : (s.setPhase p).env = s.env := rfl
@[simp] theorem State.setPhase_clock (s : State) (p : Phase) : (s.setPhase p).clock = s.clock := rfl

/-! ### `setRxCount` -/

@[simp] theorem State.setRxCount_cfg (s : State) (n : Nat) : (s.setRxCount n).cfg = s.cfg := rfl
@[simp] theorem State.setRxCount_phase (s : State) (n : Nat) : (s.setRxCount n).phase = s.phase := rfl
@[simp] theorem State.setRxCount_rxCount (s : State) (n : Nat) : (s.setRxCount n).rxCount = n := rfl
@[simp] theorem State.setRxCount_y (s : State) (n : Nat) : (s.setRxCount n).y = s.y := rfl
@[simp] theorem State.setRxCount_fb (s : State) (n : Nat) : (s.setRxCount n).fb = s.fb := rfl
@[simp] theorem State.setRxCount_sl (s : State) (n : Nat) : (s.setRxCount n).sl = s.sl := rfl
@[simp] theorem State.setRxCount_rxq (s : State) (n : Nat) : (s.setRxCount n).rxq = s.rxq := rfl
@[simp] theorem State.setRxCount_txlog (s : State) (n : Nat) : (s.setRxCount n).txlog = s.txlog := rfl
@[simp] theorem State.setRxCount_displog (s : State) (n : Nat) : (s.setRxCount n).displog = s.displog := rfl
@[simp] theorem State.setRxCount_surf (s : State) (n : Nat) : (s.setRxCount n).surf = s.surf := rfl
@[simp] theorem State.setRxCount_epoch (s : State) (n : Nat) : (s.setRxCount n).epoch = s.epoch := rfl
@[simp] theorem State.setRxCount_env (s : State) (n : Nat) : (s.setRxCount n).env = s.env := rfl
@[simp] theorem State.setRxCount_clock (s : State) (n : Nat) : (s.setRxCount n).clock = s.clock := rfl

/-! ### `setY` -/

@[simp] theorem State.setY_cfg (s : State) (n : Nat) : (s.setY n).cfg = s.cfg := rfl
@[simp] theorem State.setY_phase (s : State) (n : Nat) : (s.setY n).phase = s.phase := rfl
@[simp] theorem State.setY_rxCount (s : State) (n : Nat) : (s.setY n).rxCount = s.rxCount := rfl
@[simp] theorem State.setY_y (s : State) (n : Nat) : (s.setY n).y = n := rfl
@[simp] theorem State.setY_fb (s : State) (n : Nat) : (s.setY n).fb = s.fb := rfl
@[simp] theorem State.setY_sl (s : State) (n : Nat) : (s.setY n).sl = s.sl := rfl
@[simp] theorem State.setY_rxq (s : State) (n : Nat) : (s.setY n).rxq = s.rxq := rfl
@[simp] theorem State.setY_txlog (s : State) (n : Nat) : (s.setY n).txlog = s.txlog := rfl
@[simp] theorem State.setY_displog (s : State) (n : Nat) : (s.setY n).displog = s.displog := rfl
@[simp] theorem State.setY_surf (s : State) (n : Nat) : (s.setY n).surf = s.surf := rfl
@[simp] theorem State.setY_epoch (s : State) (n : Nat) : (s.setY n).epoch = s.epoch := rfl
@[simp] theorem State.setY_env (s : State) (n : Nat) : (s.setY n).env = s.env := rfl
@[simp] theorem State.setY_clock (s : State) (n : Nat) : (s.setY n).clock = s.clock := rfl

/-! ### `setFb` -/

@[simp] theorem State.setFb_cfg (s : State) (m : List Host.Cell) : (s.setFb m).cfg = s.cfg := rfl
@[simp] theorem State.setFb_phase (s : State) (m : List Host.Cell) : (s.setFb m).phase = s.phase := rfl
@[simp] theorem State.setFb_rxCount (s : State) (m : List Host.Cell) : (s.setFb m).rxCount = s.rxCount := rfl
@[simp] theorem State.setFb_y (s : State) (m : List Host.Cell) : (s.setFb m).y = s.y := rfl
@[simp] theorem State.setFb_fb (s : State) (m : List Host.Cell) : (s.setFb m).fb = m := rfl
@[simp] theorem State.setFb_sl (s : State) (m : List Host.Cell) : (s.setFb m).sl = s.sl := rfl
@[simp] theorem State.setFb_rxq (s : State) (m : List Host.Cell) : (s.setFb m).rxq = s.rxq := rfl
@[simp] theorem State.setFb_txlog (s : State) (m : List Host.Cell) : (s.setFb m).txlog = s.txlog := rfl
@[simp] theorem State.setFb_displog (s : State) (m : List Host.Cell) : (s.setFb m).displog = s.displog := rfl
@[simp] theorem State.setFb_surf (s : State) (m : List Host.Cell) : (s.setFb m).surf = s.surf := rfl
@[simp] theorem State.setFb_epoch (s : State) (m : List Host.Cell) : (s.setFb m).epoch = s.epoch := rfl
@[simp] theorem State.setFb_env (s : State) (m : List Host.Cell) : (s.setFb m).env = s.env := rfl
@[simp] theorem State.setFb_clock (s : State) (m : List Host.Cell) : (s.setFb m).clock = s.clock := rfl

/-! ### `setSl` -/

@[simp] theorem State.setSl_cfg (s : State) (m : Memory Color) : (s.setSl m).cfg = s.cfg := rfl
@[simp] theorem State.setSl_phase (s : State) (m : Memory Color) : (s.setSl m).phase = s.phase := rfl
@[simp] theorem State.setSl_rxCount (s : State) (m : Memory Color) : (s.setSl m).rxCount = s.rxCount := rfl
@[simp] theorem State.setSl_y (s : State) (m : Memory Color) : (s.setSl m).y = s.y := rfl
@[simp] theorem State.setSl_fb (s : State) (m : Memory Color) : (s.setSl m).fb = s.fb := rfl
@[simp] theorem State.setSl_sl (s : State) (m : Memory Color) : (s.setSl m).sl = m := rfl
@[simp] theorem State.setSl_rxq (s : State) (m : Memory Color) : (s.setSl m).rxq = s.rxq := rfl
@[simp] theorem State.setSl_txlog (s : State) (m : Memory Color) : (s.setSl m).txlog = s.txlog := rfl
@[simp] theorem State.setSl_displog (s : State) (m : Memory Color) : (s.setSl m).displog = s.displog := rfl
@[simp] theorem State.setSl_surf (s : State) (m : Memory Color) : (s.setSl m).surf = s.surf := rfl
@[simp] theorem State.setSl_epoch (s : State) (m : Memory Color) : (s.setSl m).epoch = s.epoch := rfl
@[simp] theorem State.setSl_env (s : State) (m : Memory Color) : (s.setSl m).env = s.env := rfl
@[simp] theorem State.setSl_clock (s : State) (m : Memory Color) : (s.setSl m).clock = s.clock := rfl

/-! ### `setRxq` -/

@[simp] theorem State.setRxq_cfg (s : State) (q : List Byte) : (s.setRxq q).cfg = s.cfg := rfl
@[simp] theorem State.setRxq_phase (s : State) (q : List Byte) : (s.setRxq q).phase = s.phase := rfl
@[simp] theorem State.setRxq_rxCount (s : State) (q : List Byte) : (s.setRxq q).rxCount = s.rxCount := rfl
@[simp] theorem State.setRxq_y (s : State) (q : List Byte) : (s.setRxq q).y = s.y := rfl
@[simp] theorem State.setRxq_fb (s : State) (q : List Byte) : (s.setRxq q).fb = s.fb := rfl
@[simp] theorem State.setRxq_sl (s : State) (q : List Byte) : (s.setRxq q).sl = s.sl := rfl
@[simp] theorem State.setRxq_rxq (s : State) (q : List Byte) : (s.setRxq q).rxq = q := rfl
@[simp] theorem State.setRxq_txlog (s : State) (q : List Byte) : (s.setRxq q).txlog = s.txlog := rfl
@[simp] theorem State.setRxq_displog (s : State) (q : List Byte) : (s.setRxq q).displog = s.displog := rfl
@[simp] theorem State.setRxq_surf (s : State) (q : List Byte) : (s.setRxq q).surf = s.surf := rfl
@[simp] theorem State.setRxq_epoch (s : State) (q : List Byte) : (s.setRxq q).epoch = s.epoch := rfl
@[simp] theorem State.setRxq_env (s : State) (q : List Byte) : (s.setRxq q).env = s.env := rfl
@[simp] theorem State.setRxq_clock (s : State) (q : List Byte) : (s.setRxq q).clock = s.clock := rfl

/-! ### `txEmit` -/

@[simp] theorem txEmit_cfg (s : State) (b : Byte) : (txEmit s b).cfg = s.cfg := rfl
@[simp] theorem txEmit_phase (s : State) (b : Byte) : (txEmit s b).phase = s.phase := rfl
@[simp] theorem txEmit_rxCount (s : State) (b : Byte) : (txEmit s b).rxCount = s.rxCount := rfl
@[simp] theorem txEmit_y (s : State) (b : Byte) : (txEmit s b).y = s.y := rfl
@[simp] theorem txEmit_fb (s : State) (b : Byte) : (txEmit s b).fb = s.fb := rfl
@[simp] theorem txEmit_sl (s : State) (b : Byte) : (txEmit s b).sl = s.sl := rfl
@[simp] theorem txEmit_rxq (s : State) (b : Byte) : (txEmit s b).rxq = s.rxq := rfl
@[simp] theorem txEmit_txlog (s : State) (b : Byte) : (txEmit s b).txlog = s.txlog ++ [b] := rfl
@[simp] theorem txEmit_displog (s : State) (b : Byte) : (txEmit s b).displog = s.displog := rfl
@[simp] theorem txEmit_surf (s : State) (b : Byte) : (txEmit s b).surf = s.surf := rfl
@[simp] theorem txEmit_epoch (s : State) (b : Byte) : (txEmit s b).epoch = s.epoch := rfl
@[simp] theorem txEmit_env (s : State) (b : Byte) : (txEmit s b).env = s.env := rfl
@[simp] theorem txEmit_clock (s : State) (b : Byte) : (txEmit s b).clock = s.clock := rfl

/-! ### `resetBlock` -/

@[simp] theorem resetBlock_cfg (s : State) : (resetBlock s).cfg = s.cfg := rfl
@[simp] theorem resetBlock_phase (s : State) : (resetBlock s).phase = .wait := rfl
@[simp] theorem resetBlock_rxCount (s : State) : (resetBlock s).rxCount = 0 := rfl
@[simp] theorem resetBlock_y (s : State) : (resetBlock s).y = 0 := rfl
@[simp] theorem resetBlock_fb (s : State) : (resetBlock s).fb = [] := rfl
@[simp] theorem resetBlock_sl (s : State) : (resetBlock s).sl = [] := rfl
@[simp] theorem resetBlock_rxq (s : State) : (resetBlock s).rxq = [] := rfl
@[simp] theorem resetBlock_txlog (s : State) : (resetBlock s).txlog = [] := rfl
@[simp] theorem resetBlock_displog (s : State) : (resetBlock s).displog = [] := rfl
@[simp] theorem resetBlock_surf (s : State) : (resetBlock s).surf = [] := rfl
@[simp] theorem resetBlock_epoch (s : State) : (resetBlock s).epoch = s.epoch + 1 := rfl
@[simp] theorem resetBlock_env (s : State) : (resetBlock s).env = s.env := rfl
@[simp] theorem resetBlock_clock (s : State) : (resetBlock s).clock = s.clock := rfl

/-! ### `takeChoice` -/

@[simp] theorem takeChoice_cfg (s : State) : (takeChoice s).cfg = s.cfg := by
  unfold takeChoice; split <;> rfl
@[simp] theorem takeChoice_phase (s : State) : (takeChoice s).phase = s.phase := by
  unfold takeChoice; split <;> rfl
@[simp] theorem takeChoice_rxCount (s : State) : (takeChoice s).rxCount = s.rxCount := by
  unfold takeChoice; split <;> rfl
@[simp] theorem takeChoice_y (s : State) : (takeChoice s).y = s.y := by
  unfold takeChoice; split <;> rfl
@[simp] theorem takeChoice_fb (s : State) : (takeChoice s).fb = s.fb := by
  unfold takeChoice; split <;> rfl
@[simp] theorem takeChoice_sl (s : State) : (takeChoice s).sl = s.sl := by
  unfold takeChoice; split <;> rfl
@[simp] theorem takeChoice_rxq (s : State) : (takeChoice s).rxq = s.rxq := by
  unfold takeChoice; split <;> rfl
@[simp] theorem takeChoice_txlog (s : State) : (takeChoice s).txlog = s.txlog := by
  unfold takeChoice; split <;> rfl
@[simp] theorem takeChoice_displog (s : State) : (takeChoice s).displog = s.displog := by
  unfold takeChoice; split <;> rfl
@[simp] theorem takeChoice_surf (s : State) : (takeChoice s).surf = s.surf := by
  unfold takeChoice; split <;> rfl
@[simp] theorem takeChoice_epoch (s : State) : (takeChoice s).epoch = s.epoch := by
  unfold takeChoice; split <;> rfl

theorem takeChoice_cons (s : State) (c : Choice) (cs : List Choice) (h : s.env = c :: cs) :
    takeChoice s = { s with env := cs } := by
  simp [takeChoice, h]

theorem takeChoice_nil (s : State) (h : s.env = []) : takeChoice s = { s with clock := s.clock + 1 } := by
  simp [takeChoice, h]

theorem nextChoice_cons (s : State) (c : Choice) (cs : List Choice) (h : s.env = c :: cs) :
    nextChoice s = c := by
  simp [nextChoice, h]

/-! ### `placeSelect` -/

@[simp] theorem placeSelect_cfg (s : State) (w : SelWord) :
    (placeSelect s w).cfg = s.cfg := rfl
@[simp] theorem placeSelect_phase (s : State) (w : SelWord) :
    (placeSelect s w).phase = selPhase w := rfl
@[simp] theorem placeSelect_rxCount (s : State) (w : SelWord) :
    (placeSelect s w).rxCount = s.rxCount := rfl
@[simp] theorem placeSelect_y (s : State) (w : SelWord) :
    (placeSelect s w).y = s.y := rfl
@[simp] theorem placeSelect_fb (s : State) (w : SelWord) :
    (placeSelect s w).fb = s.fb := rfl
@[simp] theorem placeSelect_sl (s : State) (w : SelWord) :
    (placeSelect s w).sl = s.sl := rfl
@[simp] theorem placeSelect_rxq (s : State) (w : SelWord) :
    (placeSelect s w).rxq = if selQ w then (if queueHasByte s then s.rxq else [0]) else [] := rfl
@[simp] theorem placeSelect_txlog (s : State) (w : SelWord) :
    (placeSelect s w).txlog = s.txlog := rfl
@[simp] theorem placeSelect_displog (s : State) (w : SelWord) :
    (placeSelect s w).displog = s.displog := rfl
@[simp] theorem placeSelect_surf (s : State) (w : SelWord) :
    (placeSelect s w).surf = s.surf := rfl
@[simp] theorem placeSelect_epoch (s : State) (w : SelWord) :
    (placeSelect s w).epoch = s.epoch := rfl
@[simp] theorem placeSelect_env (s : State) (w : SelWord) :
    (placeSelect s w).env = .sequencer (selE w) :: s.env := rfl
@[simp] theorem placeSelect_clock (s : State) (w : SelWord) :
    (placeSelect s w).clock = s.clock := rfl

end Sys2Proof.Machine
end

