-- ==== Sys2Proof/Laws/Ops.lean ====
section
/-! SUPPORT. For each shared operation, once, everything it can do. -/

namespace Sys2Proof.Machine

open Sys2Proof

variable {s t : State}

theorem rxPop_eq_some {b : Byte} :
    rxPop s = some (b, t) ↔ ∃ q, s.rxq = b :: q ∧ t = s.setRxq q := by
  unfold rxPop
  split <;> rename_i h <;> simp only [h]
  · simp
  · simp only [Option.some.injEq, Prod.mk.injEq, List.cons.injEq]
    constructor
    · rintro ⟨rfl, rfl⟩; exact ⟨_, ⟨rfl, rfl⟩, rfl⟩
    · rintro ⟨q, ⟨rfl, rfl⟩, rfl⟩; exact ⟨rfl, rfl⟩

theorem fbWrite_eq_ok {a : Nat} {b : Byte} :
    fbWrite s a b = .ok t ↔ a < s.cfg.frameBytes ∧ t = s.setFb (Memory.write s.fb a b) := by
  unfold fbWrite; split <;> simp_all [eq_comm]

theorem fbReadRun_eq_ok {a n : Nat} {bs : List Byte} :
    fbReadRun s a n = .ok bs ↔
      a + n ≤ s.cfg.frameBytes ∧ bs.length = n ∧ ∀ i, i < n → Memory.read s.fb (a + i) = bs[i]? := by
  rw [← Memory.readRun_eq_some, fbReadRun]
  split
  · split <;> simp_all
  · simp_all

theorem slReadRow_eq_ok {row : List Color} :
    slReadRow s = .ok row ↔
      row.length = s.cfg.width ∧ ∀ x, x < s.cfg.width → Memory.read s.sl x = row[x]? := by
  have := Memory.readRun_eq_some s.sl 0 s.cfg.width row
  simp only [Nat.zero_add] at this
  rw [← this, slReadRow]
  split <;> simp_all

theorem dispWriteRow_eq_ok {x0 y0 n : Nat} {row : List Color} :
    dispWriteRow s x0 y0 n row = .ok t ↔
      (y0 < s.cfg.height ∧ x0 + n ≤ s.cfg.width ∧ n ≤ row.length) ∧
        t = { s with
          surf := Memory.writeRun s.surf (surfIndex s.cfg x0 y0) (row.take n)
          displog := s.displog ++ [⟨x0, y0, n, row⟩] } := by
  unfold dispWriteRow; split <;> simp_all [eq_comm]

theorem whenEnabled_eq_next {i : Instr} {r : Result} :
    whenEnabled i s r = .next t ↔ s.cfg.legal = true ∧ enabled i s = true ∧ r = .next t := by
  unfold whenEnabled; split <;> [split; skip] <;> simp_all

theorem whenEnabled_eq_fault {i : Instr} {r : Result} {f : Fault} :
    whenEnabled i s r = .fault f ↔ s.cfg.legal = true ∧ enabled i s = true ∧ r = .fault f := by
  unfold whenEnabled; split <;> [split; skip] <;> simp_all

theorem hold_eq_next : hold s = .next t ↔ s.cfg.legal = true ∧ t = s := by
  unfold hold; split <;> rename_i h <;> simp [h, eq_comm (a := s)]

theorem queueHasByte_iff : queueHasByte s = true ↔ s.rxq ≠ [] := by
  cases h : s.rxq <;> simp [queueHasByte, h]

theorem queueHasByte_takeChoice : queueHasByte (takeChoice s) = queueHasByte s := by
  simp [queueHasByte]

theorem enabled_takeChoice (i : Instr) : enabled i (takeChoice s) = enabled i s := by
  cases i <;> simp [enabled, queueHasByte_takeChoice]

@[simp] theorem rxFlush_eq : rxFlush s = s.setRxq [] := rfl

theorem rxArrive_room {b : Byte} (h : s.rxq.length < s.cfg.rxFifoDepth) :
    rxArrive s b = s.setRxq (s.rxq ++ [b]) := by
  simp [rxArrive, rxAvail, h]

theorem rxArrive_full {b : Byte} (h : s.cfg.rxFifoDepth ≤ s.rxq.length) : rxArrive s b = s := by
  have : ¬s.rxq.length < s.cfg.rxFifoDepth := by omega
  simp [rxArrive, rxAvail, this, State.setRxq]

/-! ### The ends of `RXBYTE` and `WRROW`, field by field -/

/-- The phase in which `RXBYTE` leaves the block (R56). -/
theorem countByte_eq (s : State) : countByte s =
    if s.rxCount + 1 = s.cfg.frameBytes then (s.setRxCount (s.rxCount + 1)).setPhase .check
    else s.setRxCount (s.rxCount + 1) := by
  simp [countByte, countComplete]

@[simp] theorem countByte_phase (s : State) : (countByte s).phase =
    if s.rxCount + 1 = s.cfg.frameBytes then .check else s.phase := by
  rw [countByte_eq]; split <;> rfl

@[simp] theorem countByte_rxCount (s : State) : (countByte s).rxCount = s.rxCount + 1 := by
  rw [countByte_eq]; split <;> rfl

@[simp] theorem countByte_cfg (s : State) : (countByte s).cfg = s.cfg := by
  rw [countByte_eq]; split <;> rfl

@[simp] theorem countByte_y (s : State) : (countByte s).y = s.y := by
  rw [countByte_eq]; split <;> rfl

@[simp] theorem countByte_fb (s : State) : (countByte s).fb = s.fb := by
  rw [countByte_eq]; split <;> rfl

@[simp] theorem countByte_sl (s : State) : (countByte s).sl = s.sl := by
  rw [countByte_eq]; split <;> rfl

@[simp] theorem countByte_rxq (s : State) : (countByte s).rxq = s.rxq := by
  rw [countByte_eq]; split <;> rfl

@[simp] theorem countByte_txlog (s : State) : (countByte s).txlog = s.txlog := by
  rw [countByte_eq]; split <;> rfl

@[simp] theorem countByte_displog (s : State) : (countByte s).displog = s.displog := by
  rw [countByte_eq]; split <;> rfl

@[simp] theorem countByte_surf (s : State) : (countByte s).surf = s.surf := by
  rw [countByte_eq]; split <;> rfl

@[simp] theorem countByte_epoch (s : State) : (countByte s).epoch = s.epoch := by
  rw [countByte_eq]; split <;> rfl

@[simp] theorem countByte_env (s : State) : (countByte s).env = s.env := by
  rw [countByte_eq]; split <;> rfl

@[simp] theorem countByte_clock (s : State) : (countByte s).clock = s.clock := by
  rw [countByte_eq]; split <;> rfl

/-- The phase and the row in which `WRROW` leaves the block (R65). -/
theorem nextRow_eq (s : State) : nextRow s =
    if s.y = s.cfg.height - 1 then (s.setY 0).setPhase .ack
    else (s.setY (s.y + 1)).setPhase .decode := by
  simp [nextRow, lastRow]

@[simp] theorem nextRow_phase (s : State) : (nextRow s).phase =
    if s.y = s.cfg.height - 1 then .ack else .decode := by
  rw [nextRow_eq]; split <;> rfl

@[simp] theorem nextRow_y (s : State) : (nextRow s).y =
    if s.y = s.cfg.height - 1 then 0 else s.y + 1 := by
  rw [nextRow_eq]; split <;> rfl

@[simp] theorem nextRow_rxCount (s : State) : (nextRow s).rxCount = s.rxCount := by
  rw [nextRow_eq]; split <;> rfl

@[simp] theorem nextRow_cfg (s : State) : (nextRow s).cfg = s.cfg := by
  rw [nextRow_eq]; split <;> rfl

@[simp] theorem nextRow_fb (s : State) : (nextRow s).fb = s.fb := by
  rw [nextRow_eq]; split <;> rfl

@[simp] theorem nextRow_sl (s : State) : (nextRow s).sl = s.sl := by
  rw [nextRow_eq]; split <;> rfl

@[simp] theorem nextRow_rxq (s : State) : (nextRow s).rxq = s.rxq := by
  rw [nextRow_eq]; split <;> rfl

@[simp] theorem nextRow_txlog (s : State) : (nextRow s).txlog = s.txlog := by
  rw [nextRow_eq]; split <;> rfl

@[simp] theorem nextRow_displog (s : State) : (nextRow s).displog = s.displog := by
  rw [nextRow_eq]; split <;> rfl

@[simp] theorem nextRow_surf (s : State) : (nextRow s).surf = s.surf := by
  rw [nextRow_eq]; split <;> rfl

@[simp] theorem nextRow_epoch (s : State) : (nextRow s).epoch = s.epoch := by
  rw [nextRow_eq]; split <;> rfl

@[simp] theorem nextRow_env (s : State) : (nextRow s).env = s.env := by
  rw [nextRow_eq]; split <;> rfl

@[simp] theorem nextRow_clock (s : State) : (nextRow s).clock = s.clock := by
  rw [nextRow_eq]; split <;> rfl

end Sys2Proof.Machine
end

