-- ==== Sys2Proof/Laws/Decode.lean ====
section
/-! SUPPORT. The decoder on the packed select word, and the fields of a select word. -/

namespace Sys2Proof.Machine

open Sys2Proof

@[simp] theorem ofCode_code (p : Phase) : Phase.ofCode p.code = p := by cases p <;> rfl

@[simp] theorem selPhase_packSel (p : Phase) (q e : Bool) : selPhase (packSel p q e) = p := by
  cases p <;> cases q <;> cases e <;> rfl

@[simp] theorem selQ_packSel (p : Phase) (q e : Bool) : selQ (packSel p q e) = q := by
  cases p <;> cases q <;> cases e <;> rfl

@[simp] theorem selE_packSel (p : Phase) (q e : Bool) : selE (packSel p q e) = e := by
  cases p <;> cases q <;> cases e <;> rfl

theorem packSel_fields (w : SelWord) : packSel (selPhase w) (selQ w) (selE w) = w := by
  revert w; decide

/-- No two rows of the table have a word in common, so the order of the rows does not matter. -/
theorem selTable_rows_disjoint : selTable.Pairwise (fun r r' => ∀ w, ¬(r.selects w && r'.selects w)) := by
  decide

/-- Once a select word is placed, it is the select word of the state. -/
theorem selWord_placeSelect (s : State) (w : SelWord) : selWord (placeSelect s w) (selE w) = w := by
  have hq : queueHasByte (placeSelect s w) = selQ w := by
    by_cases h : selQ w
    · by_cases h' : s.rxq = [] <;> simp [queueHasByte, h, h']
    · simp [queueHasByte, h]
  rw [selWord, hq, placeSelect_phase, packSel_fields]

end Sys2Proof.Machine
end

