-- ==== Sys2Proof/Laws/Exec.lean ====
section
/-! SUPPORT. For each step, once, what it has done if it answers a next state; and the same for
`step`. -/

namespace Sys2Proof.Machine

open Sys2Proof

variable {s t : State}

theorem execBoot_next (h : execBoot s = .next t) : s.phase = .wait ∧ t = s.setPhase .flush := by
  obtain ⟨-, he, h⟩ := whenEnabled_eq_next.mp h
  exact ⟨by simpa [enabled] using he, by cases h; rfl⟩

theorem execFlush_next (h : execFlush s = .next t) :
    s.phase = .flush ∧ t = ((s.setRxq []).setRxCount 0).setPhase .read := by
  obtain ⟨-, he, h⟩ := whenEnabled_eq_next.mp h
  exact ⟨by simpa [enabled] using he, by cases h; rfl⟩

theorem execRxbyte_next (h : execRxbyte s = .next t) :
    s.phase = .read ∧ ∃ b q, s.rxq = b :: q ∧ s.rxCount < s.cfg.frameBytes ∧
      t = countByte ((s.setRxq q).setFb (Memory.write s.fb s.rxCount b)) := by
  obtain ⟨-, he, h⟩ := whenEnabled_eq_next.mp h
  simp only [enabled, Bool.and_eq_true, beq_iff_eq] at he
  refine ⟨he.1, ?_⟩
  split at h
  · simp at h
  · rename_i b u hu
    obtain ⟨q, hq, rfl⟩ := rxPop_eq_some.mp hu
    split at h
    · simp at h
    · rename_i v hv
      obtain ⟨hlt, rfl⟩ := fbWrite_eq_ok.mp hv
      cases h
      exact ⟨b, q, hq, hlt, rfl⟩

theorem execRxabandon_next (h : execRxabandon s = .next t) :
    s.phase = .read ∧ s.rxq = [] ∧ t = s.setPhase .check := by
  obtain ⟨-, he, h⟩ := whenEnabled_eq_next.mp h
  simp only [enabled, Bool.and_eq_true, beq_iff_eq, queueHasByte, Bool.not_not,
    List.isEmpty_iff] at he
  exact ⟨he.1, he.2, by cases h; rfl⟩

theorem execCheck_next (h : execCheck s = .next t) :
    s.phase = .check ∧
      t = if s.rxCount = s.cfg.frameBytes then (s.setY 0).setPhase .decode else s.setPhase .flush := by
  obtain ⟨-, he, h⟩ := whenEnabled_eq_next.mp h
  refine ⟨by simpa [enabled] using he, ?_⟩
  cases h
  simp [countComplete]

theorem execAck_next (h : execAck s = .next t) :
    s.phase = .ack ∧ t = (txEmit s s.cfg.ackByte).setPhase .flush := by
  obtain ⟨-, he, h⟩ := whenEnabled_eq_next.mp h
  exact ⟨by simpa [enabled] using he, by cases h; rfl⟩

theorem execLinkbyte_next {b : Byte} (h : execLinkbyte b s = .next t) : t = rxArrive s b := by
  obtain ⟨-, -, h⟩ := whenEnabled_eq_next.mp h
  cases h; rfl

theorem execReset_next (h : execReset s = .next t) : t = resetBlock s := by
  obtain ⟨-, -, h⟩ := whenEnabled_eq_next.mp h
  cases h; rfl

/-- The bytes of a row that all hold values can be read, and give the colours of the row's pixels. -/
theorem fbReadRun_row (hl : s.cfg.legal = true) {y : Nat} (hy : y < s.cfg.height)
    (hf : ∀ i < s.cfg.rowBytes, (Memory.read s.fb (rowBase s.cfg y + i)).isSome = true) :
    ∃ row, fbReadRun s (rowBase s.cfg y) s.cfg.rowBytes = .ok row ∧
      ∀ x < s.cfg.width, framePixel s.cfg s.fb x y = some (columnColor s.cfg row x) := by
  obtain ⟨row, hr⟩ := Memory.readRun_isSome s.fb (rowBase s.cfg y) s.cfg.rowBytes hf
  obtain ⟨h1, h2⟩ := (Memory.readRun_eq_some _ _ _ _).mp hr
  refine ⟨row, fbReadRun_eq_ok.mpr ⟨row_inside hl hy, h1, h2⟩, fun x hx => ?_⟩
  exact framePixel_of_row h1 h2 (column_inside hl hx)

/-- `DECODE` writes into `SL` the colours of row `y`, whose bytes all hold values. -/
theorem execDecode_next (h : execDecode s = .next t) :
    s.phase = .decode ∧ ∃ row, rowBase s.cfg s.y + s.cfg.rowBytes ≤ s.cfg.frameBytes ∧
      row.length = s.cfg.rowBytes ∧
      (∀ i, i < s.cfg.rowBytes → Memory.read s.fb (rowBase s.cfg s.y + i) = row[i]?) ∧
      t = (s.setSl (Memory.writeRun s.sl 0 (rowColors s.cfg row))).setPhase .write := by
  obtain ⟨-, he, h⟩ := whenEnabled_eq_next.mp h
  refine ⟨by simpa [enabled] using he, ?_⟩
  split at h
  · simp at h
  · rename_i row hrow
    obtain ⟨h1, h2, h3⟩ := fbReadRun_eq_ok.mp hrow
    cases h
    exact ⟨row, h1, h2, h3, rfl⟩

/-- `WRROW` writes row `y` of the surface from `SL`, whose elements all hold values. -/
theorem execWrrow_next (h : execWrrow s = .next t) :
    s.phase = .write ∧ s.y < s.cfg.height ∧ ∃ row, row.length = s.cfg.width ∧
      (∀ x, x < s.cfg.width → Memory.read s.sl x = row[x]?) ∧
      t = nextRow { s with
        surf := Memory.writeRun s.surf (surfIndex s.cfg 0 s.y) row
        displog := s.displog ++ [⟨0, s.y, s.cfg.width, row⟩] } := by
  obtain ⟨-, he, h⟩ := whenEnabled_eq_next.mp h
  refine ⟨by simpa [enabled] using he, ?_⟩
  split at h
  · simp at h
  · rename_i row hrow
    obtain ⟨hl, hr⟩ := slReadRow_eq_ok.mp hrow
    split at h
    · simp at h
    · rename_i u hu
      obtain ⟨⟨hy, -, -⟩, rfl⟩ := dispWriteRow_eq_ok.mp hu
      cases h
      exact ⟨hy, row, hl, hr, by simp [← hl]⟩

/-- What a step is: an operation that was selected, or a hold. -/
theorem step_next (h : step s = .next t) :
    (∃ i, fetch s = .ok i ∧ exec i (takeChoice s) = .next t) ∨
      (∃ e, fetch s = .error e ∧ t = takeChoice s) := by
  unfold step at h
  split at h
  · exact .inl ⟨_, by assumption, h⟩
  · exact .inr ⟨_, by assumption, (hold_eq_next.mp h).2⟩

end Sys2Proof.Machine
end

