-- ==== Sys2Proof/Laws/PerInstr.lean ====
section
/-! SUPPORT. The statement made of every operation, constructor by constructor: its signal is the one
the operation map gives it (30_encoding.md R49). -/

namespace Sys2Proof.Laws.SignalIsItsRow

open Sys2Proof

/-- An operation of `SEQ` is encoded by a word that has its row's pattern and no other row's; a byte of
the link by itself; the reset by its event. -/
def Statement (i : Instr) : Prop :=
  match encode i with
  | .select w => ∀ r ∈ selTable, r.selects w = true ↔ r.op = i
  | .link b => i = .linkbyte b
  | .resetEvent => i = .reset

theorem boot : Statement .boot :=
  show ∀ r ∈ selTable, r.selects 0b00001#5 = true ↔ r.op = .boot by decide
theorem flush : Statement .flush :=
  show ∀ r ∈ selTable, r.selects 0b00100#5 = true ↔ r.op = .flush by decide
theorem rxbyte : Statement .rxbyte :=
  show ∀ r ∈ selTable, r.selects 0b01010#5 = true ↔ r.op = .rxbyte by decide
theorem rxabandon : Statement .rxabandon :=
  show ∀ r ∈ selTable, r.selects 0b01001#5 = true ↔ r.op = .rxabandon by decide
theorem check : Statement .check :=
  show ∀ r ∈ selTable, r.selects 0b01100#5 = true ↔ r.op = .check by decide
theorem decode : Statement .decode :=
  show ∀ r ∈ selTable, r.selects 0b10000#5 = true ↔ r.op = .decode by decide
theorem wrrow : Statement .wrrow :=
  show ∀ r ∈ selTable, r.selects 0b10100#5 = true ↔ r.op = .wrrow by decide
theorem ack : Statement .ack :=
  show ∀ r ∈ selTable, r.selects 0b11000#5 = true ↔ r.op = .ack by decide
theorem linkbyte (b : Byte) : Statement (.linkbyte b) := rfl
theorem reset : Statement .reset := rfl

end Sys2Proof.Laws.SignalIsItsRow
end

