-- ==== Sys2Proof/Laws/Run.lean ====
section
/-! SUPPORT. Runs of several steps, and what a step is once the environment's choice is known. -/

namespace Sys2Proof.Machine

open Sys2Proof

theorem runSteps_zero (s : State) : runSteps 0 s = .next s := rfl

theorem runSteps_succ {n : Nat} {s t : State} (h : step s = .next t) :
    runSteps (n + 1) s = runSteps n t := by
  have h' : Sys2Proof.core.step s = .next t := h
  simp only [runSteps, Host.Core.run, h']
  rfl

/-- A run in two parts. -/
theorem runSteps_add {m n : Nat} {s t : State} (h : runSteps m s = .next t) :
    runSteps (m + n) s = runSteps n t := by
  induction m generalizing s with
  | zero => cases h; simp
  | succ m ih =>
    rw [show m + 1 + n = (m + n) + 1 by omega]
    cases hs : step s with
    | next u => rw [runSteps_succ hs] at h ⊢; exact ih h
    | fault r =>
      have h' : Sys2Proof.core.step s = .fault r := hs
      simp [runSteps, Host.Core.run, h'] at h
    | refused r =>
      have h' : Sys2Proof.core.step s = .refused r := hs
      simp [runSteps, Host.Core.run, h'] at h

/-- What the fetch gives, by the environment's choice: an operation of `SEQ` that is enabled, the
arrival, or the reset. -/
theorem fetch_linkByte {s : State} {b : Byte} (h : nextChoice s = .linkByte b) :
    fetch s = .ok (.linkbyte b) := by
  simp [fetch, h, signalOf, decode]

theorem fetch_reset {s : State} (h : nextChoice s = .reset) : fetch s = .ok .reset := by
  simp [fetch, h, signalOf, decode]

theorem fetch_sequencer {s : State} {e : Bool} (h : nextChoice s = .sequencer e) :
    fetch s = decodeSel (packSel s.phase (queueHasByte s) e) := by
  simp [fetch, h, signalOf, decode, selWord]

/-- Everything a step can do, by the environment's choice and the phase: the arrival, the reset, the
operation of `SEQ` that the phase names, or a hold. What each operation does is its `_next` lemma. -/
theorem step_cases {s t : State} (h : step s = .next t) :
    (∃ b, nextChoice s = .linkByte b ∧ t = rxArrive (takeChoice s) b) ∨
    (nextChoice s = .reset ∧ t = resetBlock (takeChoice s)) ∨
    ∃ e, nextChoice s = .sequencer e ∧
      ((s.phase = .wait ∧ e = true ∧ execBoot (takeChoice s) = .next t) ∨
        (s.phase = .flush ∧ execFlush (takeChoice s) = .next t) ∨
        (s.phase = .read ∧ s.rxq ≠ [] ∧ execRxbyte (takeChoice s) = .next t) ∨
        (s.phase = .read ∧ s.rxq = [] ∧ e = true ∧ execRxabandon (takeChoice s) = .next t) ∨
        (s.phase = .check ∧ execCheck (takeChoice s) = .next t) ∨
        (s.phase = .decode ∧ execDecode (takeChoice s) = .next t) ∨
        (s.phase = .write ∧ execWrrow (takeChoice s) = .next t) ∨
        (s.phase = .ack ∧ execAck (takeChoice s) = .next t) ∨
        ((s.phase = .wait ∧ e = false ∨ s.phase = .read ∧ s.rxq = [] ∧ e = false ∨
          s.phase = .reserved) ∧ t = takeChoice s)) := by
  cases hc : nextChoice s with
  | linkByte b =>
    simp only [step, fetch_linkByte hc, exec] at h
    exact .inl ⟨b, rfl, execLinkbyte_next h⟩
  | reset =>
    simp only [step, fetch_reset hc, exec] at h
    exact .inr (.inl ⟨rfl, execReset_next h⟩)
  | sequencer e =>
    refine .inr (.inr ⟨e, rfl, ?_⟩)
    have hf := fetch_sequencer hc
    simp only [step] at h
    cases hp : s.phase <;> cases hq : s.rxq <;> cases e <;>
      simp only [hp, hq, queueHasByte, List.isEmpty_nil, List.isEmpty_cons, Bool.not_true,
        Bool.not_false] at hf <;>
      simp only [hf, decodeSel, selTable, List.find?, SelRow.selects, packSel, Phase.code] at h <;>
      simp [exec, hold_eq_next] at h ⊢ <;> first | exact h | exact h.2

/-- A step under the choice `c` is the step of the state whose next choice is `c`. -/
theorem step_eq_stepWith (s : State) : step s = stepWith (nextChoice s) (takeChoice s) := by
  cases h : s.env <;> simp [step, stepWith, fetch, nextChoice, takeChoice, signalOf, selWord, queueHasByte, h]

/-- Everything a step under the choice `c` can do; `step_cases` with the choice given. -/
theorem stepWith_cases {c : Choice} {s t : State} (h : stepWith c s = .next t) :
    (∃ b, c = .linkByte b ∧ t = rxArrive s b) ∨ (c = .reset ∧ t = resetBlock s) ∨
    ∃ e, c = .sequencer e ∧
      ((s.phase = .wait ∧ e = true ∧ execBoot s = .next t) ∨
        (s.phase = .flush ∧ execFlush s = .next t) ∨
        (s.phase = .read ∧ s.rxq ≠ [] ∧ execRxbyte s = .next t) ∨
        (s.phase = .read ∧ s.rxq = [] ∧ e = true ∧ execRxabandon s = .next t) ∨
        (s.phase = .check ∧ execCheck s = .next t) ∨
        (s.phase = .decode ∧ execDecode s = .next t) ∨
        (s.phase = .write ∧ execWrrow s = .next t) ∨
        (s.phase = .ack ∧ execAck s = .next t) ∨
        ((s.phase = .wait ∧ e = false ∨ s.phase = .read ∧ s.rxq = [] ∧ e = false ∨
          s.phase = .reserved) ∧ t = s)) :=
  step_cases (s := { s with env := c :: s.env }) h

end Sys2Proof.Machine
end

