-- ==== Sys2Proof/Tests/Slice0.lean ====
section
/-! SUPPORT. The model's own tests: vectors of 95_test_vectors.md ("V-…"), examples of the rules, and for
each statement with hypotheses a state that meets them ("witness"). -/

namespace Sys2Proof.Machine.Tests

open Sys2Proof Sys2Proof.Machine

/-! ## The small configuration and its states -/

/-- Configuration `T` of 95_test_vectors.md section 0. -/
def cT : Config where
  width := 16
  height := 8
  baud := 921600
  ackByte := 0xAA
  colorBits := 16
  colorOn := 0xFFFF
  colorOff := 0x0000
  rxFifoExtra := 3
  rxTimeout := 0
  lineFormat := ⟨1, 8, 0, 1, true⟩

/-- The test frame `F` of 95_test_vectors.md section 0. -/
def frameF : List Byte :=
  [0x80, 0x01, 0xA5, 0x3C, 0xFF, 0x00, 0x00, 0xFF, 0x0F, 0xF0, 0x55, 0xAA, 0x01, 0x80, 0x7E, 0x81]

/-- A state `(phase, rx_count, y, RXQ, TXLOG, 0)` of configuration `T` with nothing in the buffers. -/
def st (p : Phase) (n y : Nat) (q : List Byte) : State :=
  { State.resetOf cT with phase := p, rxCount := n, y := y, rxq := q }

/-- A state with the frame `F` in `FB` and a full count. -/
def full (p : Phase) (y : Nat) : State := { st p 16 y [] with fb := Memory.cellsFrom 0 frameF }

/-- The colours of row `y` of a frame. -/
def frameRow (bs : List Byte) (y : Nat) : List Color := rowColors cT ((bs.drop (2 * y)).take 2)

/-- `F` in `FB`, its rows before row `y` on the display, `SL` holding row `z`. -/
def drawn (p : Phase) (y z : Nat) (rows : Nat) : State :=
  { full p y with
    sl := Memory.cellsFrom 0 (frameRow frameF z)
    surf := Memory.cellsFrom 0 ((List.range rows).flatMap (frameRow frameF))
    displog := (List.range rows).map (fun r => ⟨0, r, 16, frameRow frameF r⟩) }

/-- The next state of an outcome. -/
def next? : Result → Option State
  | .next s => some s
  | _ => none

/-- The fault of an outcome. -/
def fault? : Result → Option Fault
  | .fault f => some f
  | _ => none

/-- The refusal of an outcome. -/
def refusal? : Result → Option Refusal
  | .refused r => some r
  | _ => none

/-- A picture row as booleans: on is `true`. -/
def picture (row : Memory Color) : List Bool := row.map (fun c => c.2 == 0xFFFF)

/-! ## Well-formedness: an ill-formed configuration for each check (00_scope.md R6, R8) -/

theorem test_legal_T : cT.legal = true := by decide
theorem test_legal_reference : Config.reference.legal = true := by decide
theorem test_illegal_width : { cT with width := 12 }.legal = false := by decide
theorem test_illegal_height : { cT with height := 9 }.legal = false := by decide
theorem test_illegal_zero_width : { cT with width := 0 }.legal = false := by decide
theorem test_illegal_zero_height : { cT with height := 0 }.legal = false := by decide
theorem test_illegal_equal_colors : { cT with colorOn := 0 }.legal = false := by decide
theorem test_illegal_wide_on : { cT with colorOn := 0x10000 }.legal = false := by decide
theorem test_illegal_wide_off : { cT with colorOff := 0x10000 }.legal = false := by decide
theorem test_wellFormed_every_byte : (Instr.linkbyte 0xAA).wellFormed = true := by decide

/-! ## Derived constants (00_scope.md R7, 70_reset_and_hazards.md R103) -/

theorem test_frameSymbols : Config.reference.frameSymbols = 15360 := by decide
theorem test_counter_widths_T : (cT.cntBits, cT.yBits) = (5, 3) := by decide

/-! ## Decoding: the words of `opcode_table.json` written out (30_encoding.md R49) -/

theorem test_decode_boot : decodeSel 0b00001#5 = .ok .boot ∧ decodeSel 0b00011#5 = .ok .boot := by decide
theorem test_decode_flush : decodeSel 0b00100#5 = .ok .flush ∧ decodeSel 0b00111#5 = .ok .flush := by decide
theorem test_decode_rxbyte : decodeSel 0b01010#5 = .ok .rxbyte ∧ decodeSel 0b01011#5 = .ok .rxbyte := by decide
theorem test_decode_rxabandon : decodeSel 0b01001#5 = .ok .rxabandon := by decide
theorem test_decode_check : decodeSel 0b01100#5 = .ok .check ∧ decodeSel 0b01111#5 = .ok .check := by decide
theorem test_decode_decode : decodeSel 0b10000#5 = .ok .decode ∧ decodeSel 0b10011#5 = .ok .decode := by decide
theorem test_decode_wrrow : decodeSel 0b10100#5 = .ok .wrrow ∧ decodeSel 0b10111#5 = .ok .wrrow := by decide
theorem test_decode_ack : decodeSel 0b11000#5 = .ok .ack ∧ decodeSel 0b11011#5 = .ok .ack := by decide
theorem test_decode_linkbyte : decode (.link 0xAA) = .ok (.linkbyte 0xAA) := by decide
theorem test_decode_reset : decode .resetEvent = .ok .reset := by decide
theorem test_decode_waiting :
    decodeSel 0b00000#5 = .error .awaitsBootDone ∧ decodeSel 0b00010#5 = .error .awaitsBootDone ∧
      decodeSel 0b01000#5 = .error .awaitsByteOrGap := by decide
theorem test_decode_reserved :
    decodeSel 0b11100#5 = .error .reservedPhase ∧ decodeSel 0b11111#5 = .error .reservedPhase := by decide
theorem test_decode_not_a_select_byte :
    decodeBytes [0x24] = .error .bitsAboveSelect ∧ decodeBytes [] = .error .notOneByte ∧
      decodeBytes [0x04, 0x00] = .error .notOneByte := by decide
theorem test_tableWord_too_long : decodeTableWord 8 0x104 = none ∧ decodeTableWord 16 0x04 = none := by decide

/-! ## The operations -/

/-- V-B-2. -/
theorem test_boot : next? (exec .boot (st .wait 0 0 [0xDE, 0xAD])) = some (st .flush 0 0 [0xDE, 0xAD]) := by
  decide

/-- V-F-1. -/
theorem test_flush : next? (exec .flush (st .flush 5 0 [0xDE, 0xAD])) = some (st .read 0 0 []) := by decide

/-- V-R-2: the example of R56. -/
theorem test_rxbyte_last : next? (exec .rxbyte (st .read 15 0 [0x81, 0x33])) =
    some { st .check 16 0 [0x33] with fb := [(15, 0x81)] } := by decide

/-- V-R-4: overwrite in place. -/
theorem test_rxbyte_overwrites : (next? (exec .rxbyte { st .read 3 0 [0x00] with
    fb := Memory.cellsFrom 0 frameF })).map (fun t => (Memory.read t.fb 3, Memory.read t.fb 4, t.rxCount)) =
    some (some 0x00, some 0xFF, 4) := by decide

/-- V-T-1. -/
theorem test_rxabandon : next? (exec .rxabandon (st .read 5 0 [])) = some (st .check 5 0 []) := by decide

/-- V-T-3: not with a byte buffered. -/
theorem test_rxabandon_with_byte :
    refusal? (exec .rxabandon (st .read 5 0 [0x09])) = some (.notEnabled .rxabandon) := by decide

/-- V-C-2. -/
theorem test_check_full : next? (exec .check (st .check 16 5 [])) = some (st .decode 16 0 []) := by decide

/-- V-C-3. -/
theorem test_check_short : next? (exec .check (st .check 15 0 [])) = some (st .flush 15 0 []) := by decide

/-- V-D-1, the example of R64: `0xA5 0x3C` is `#.#..#.#..####..`. -/
theorem test_decode_row : (next? (exec .decode (full .decode 1))).map (fun t => (picture t.sl, t.phase, t.y)) =
    some ([true, false, true, false, false, true, false, true, false, false, true, true, true, true,
      false, false], .write, 1) := by decide

/-- V-D-5: the last row, over a scanline that was all on. -/
theorem test_decode_last_row : (next? (exec .decode { full .decode 7 with
    sl := Memory.cellsFrom 0 (List.replicate 16 0xFFFF) })).map (fun t => picture t.sl) =
    some [false, true, true, true, true, true, true, false, true, false, false, false, false, false,
      false, true] := by decide

/-- V-W-1: row 3 shows, its neighbours do not. -/
theorem test_wrrow_middle : (next? (exec .wrrow { full .write 3 with
    sl := Memory.cellsFrom 0 (frameRow frameF 3) })).map
      (fun t => (t.y, t.phase, t.displog, [47, 48, 56, 64].map (Memory.read t.surf))) =
    some (4, .decode, [⟨0, 3, 16, frameRow frameF 3⟩], [none, some 0, some 0xFFFF, none]) := by decide

/-- V-W-2: the last row. -/
theorem test_wrrow_last : (next? (exec .wrrow { full .write 7 with
    sl := Memory.cellsFrom 0 (frameRow frameF 7) })).map (fun t => (t.y, t.phase, Memory.read t.surf 127)) =
    some (0, .ack, some 0xFFFF) := by decide

/-- V-K-2. -/
theorem test_ack : next? (exec .ack { st .ack 16 0 [0x7F, 0xFE] with txlog := [0xAA] }) =
    some { st .flush 16 0 [0x7F, 0xFE] with txlog := [0xAA, 0xAA] } := by decide

/-- V-L-1, V-L-3. -/
theorem test_linkbyte : next? (exec (.linkbyte 0x22) (st .wait 0 0 [0x11])) =
    some (st .wait 0 0 [0x11, 0x22]) := by decide

/-- V-L-2: a full queue. -/
theorem test_linkbyte_full : next? (exec (.linkbyte 0x05) (st .read 0 0 [1, 2, 3, 4])) =
    some (st .read 0 0 [1, 2, 3, 4]) := by decide

/-- V-Z-1. -/
theorem test_reset : next? (exec .reset { drawn .write 3 3 3 with txlog := [0xAA, 0xAA], rxq := [0x09] }) =
    some { st .wait 0 0 [] with epoch := 1 } := by decide

/-! ## The step -/

/-- V-R-5: a read with nothing buffered waits. -/
theorem test_step_waits : next? (step { st .read 7 0 [] with env := [.sequencer false] }) =
    some (st .read 7 0 []) := by decide

/-- V-S-1: in `DECODE` an offer is ignored. -/
theorem test_step_ignores_offer : (next? (step { full .decode 0 with env := [.sequencer true] })).map
    (fun t => t.phase) = some .write := by decide

/-- V-S-2: only the reset leaves the reserved phase. -/
theorem test_step_reserved :
    next? (step { st .reserved 0 0 [] with env := [.sequencer true] }) = some (st .reserved 0 0 []) ∧
    next? (step { st .reserved 0 0 [] with env := [.reset] }) = some { st .wait 0 0 [] with epoch := 1 } := by
  decide

/-- A word of the table runs as the first operation after reset: `RXBYTE`, with the byte 0 in the queue. -/
theorem test_fetchWord_rxbyte : (next? (step (State.reset.withFetchWord 8 0x0A))).map
    (fun t => (t.fb, t.rxCount, t.phase)) = some ([(0, 0)], 1, .read) := by decide

/-- V-X-2 shortened: `BOOTDONE, GAP` ends in an empty read. -/
theorem test_script_boot_gap : next? (runScript [.bootDone, .gap] (State.resetOf cT)) =
    some (st .read 0 0 []) := by decide

/-- R67 on one byte: bit 7 is the leftmost pixel. -/
theorem test_packByte : packByte (fun j => j == 0 || j == 7) = 0x81 := by decide

/-! ## Schedules -/

/-- An empty bad cycle, then the frame `F` with two arrivals in a row, an arrival on its own, idle turns, and two
empty bad cycles after the render. -/
def slowSchedule : List Choice :=
  [.sequencer true, .sequencer false, .sequencer true] ++
    (frameF.take 2).map .linkByte ++ List.replicate 4 (.sequencer false) ++
    (frameF.drop 2).flatMap (fun b => [.linkByte b, .sequencer false]) ++
    List.replicate 25 (.sequencer true)

/-- V-X-2 under given choices: `BOOTDONE`, then two empty bad cycles. -/
theorem test_opsTaken : opsTaken (List.replicate 8 (.sequencer true)) (State.resetOf cT) =
    [.boot, .flush] ++ emptyBadCycles 2 := by decide

/-- P1: the pixels a claim observes are the picture of the frame. -/
theorem test_observe_surf : (drawn .ack 0 7 8).observe.surf.map (· == 0xFFFF) =
    frameF.flatMap (fun v => (List.range 8).map (fun j => v.getLsbD (7 - j))) := by decide +kernel

/-! ## Witnesses: states that meet the hypotheses of the statements -/

theorem witness_SequencerHoldsWithNothingEnabled :
    (st .wait 0 0 []).cfg.legal = true ∧
    nextChoice { st .wait 0 0 [1] with env := [.sequencer false] } = .sequencer false ∧
    nextChoice { st .read 3 0 [] with env := [.sequencer false] } = .sequencer false ∧
    nextChoice { st .reserved 0 0 [] with env := [.sequencer true] } = .sequencer true := by decide

theorem witness_PlacedWordRunsNext :
    decodeTableWord 8 0x01 = some .boot ∧ decodeTableWord 8 0x1B = some .ack := by decide

theorem witness_StepRunsTheDecodedOperation :
    nextChoice { st .flush 0 0 [7] with env := [.sequencer false] } = .sequencer false ∧
    decodeSel (packSel .flush true false) = .ok .flush ∧
    nextChoice { st .ack 0 0 [] with env := [.linkByte 0xFF] } = .linkByte 0xFF ∧
    nextChoice { st .ack 0 0 [] with env := [.reset] } = .reset := by decide

theorem witness_BootLeavesWaiting : cT.legal = true ∧ (st .wait 0 0 []).phase = .wait := by decide

theorem witness_FlushEmptiesTheQueueAndStartsARead :
    cT.legal = true ∧ (st .flush 5 0 [0xDE, 0xAD]).phase = .flush := by decide

/-- The first byte, the last byte. -/
theorem witness_RxbyteStoresTheOldestByte :
    (st .read 0 0 [0x80]).rxCount < cT.frameBytes ∧ (st .read 15 0 [0x81, 0x33]).rxCount < cT.frameBytes ∧
    (st .read 15 0 [0x81, 0x33]).rxq = 0x81 :: [0x33] ∧ (st .read 15 0 [0x81]).cfg.legal = true := by decide

theorem witness_RxabandonEndsTheRead :
    (st .read 0 0 []).rxq = [] ∧ (st .read 0 0 []).phase = .read ∧ cT.legal = true := by decide

/-- Full, one short, and another phase. -/
theorem witness_CheckComparesTheCount :
    (st .check 16 0 []).rxCount = (st .check 16 0 []).cfg.frameBytes ∧
    (st .check 15 0 []).rxCount ≠ (st .check 15 0 []).cfg.frameBytes ∧
    (st .check 0 0 []).phase = .check ∧ (st .flush 16 0 []).phase ≠ .check := by decide

theorem witness_AckEmitsOneByte : cT.legal = true ∧ (st .ack 16 0 []).phase = .ack := by decide

/-- One place left, and full. -/
theorem witness_LinkbyteIsQueuedOrLost :
    (st .write 0 0 [1, 2, 3]).rxq.length < cT.rxFifoDepth ∧
    cT.rxFifoDepth ≤ (st .write 0 0 [1, 2, 3, 4]).rxq.length ∧ cT.legal = true := by decide

/-- The first and the last row. -/
theorem witness_DecodeExpandsTheRow :
    (∀ y ∈ [0, 7], (full .decode y).phase = .decode ∧ (full .decode y).y < cT.height ∧
      ∀ i < cT.rowBytes, (Memory.read (full .decode y).fb (y * cT.rowBytes + i)).isSome = true) ∧
    (st .write 0 0 []).phase ≠ .decode := by decide

/-- The last row but one and the last. -/
theorem witness_WrrowTransfersTheScanline :
    ∀ y ∈ [6, 7], (drawn .write y y y).phase = .write ∧ (drawn .write y y y).y < cT.height ∧
      (frameRow frameF y).length = cT.width ∧
      ∀ x < cT.width, Memory.read (drawn .write y y y).sl x = (frameRow frameF y)[x]? := by decide

theorem witness_ResetRestartsTheBlock : (drawn .write 3 3 3).cfg.legal = true := by decide

theorem witness_OperationsNotEnabledAreRefused :
    cT.legal = true ∧ enabled .rxbyte (st .read 0 0 []) = false ∧ enabled .wrrow (st .ack 0 0 []) = false := by
  decide

/-- Each way to break R6. -/
theorem witness_IllegalSizesAreRefused :
    { cT with width := 12 }.width % 8 ≠ 0 ∧ { cT with height := 9 }.height % 8 ≠ 0 ∧
    { cT with width := 0 }.width < 8 ∧ { cT with height := 0 }.height < 8 := by decide

/-- A missing first and last byte of the row, and the first row that does not exist. -/
theorem witness_DecodeFaultsOnMissingBytes :
    (st .decode 16 0 []).phase = .decode ∧
    Memory.read (st .decode 16 0 []).fb (0 * cT.rowBytes + 0) = none ∧
    Memory.read { full .decode 7 with fb := Memory.cellsFrom 0 (frameF.take 15) }.fb (7 * cT.rowBytes + 1) = none ∧
    cT.height ≤ (full .decode 8).y := by decide

/-- A missing first and last pixel, and the first row that does not exist. -/
theorem witness_WrrowFaultsOnMissingPixels :
    (st .write 16 0 []).phase = .write ∧ Memory.read (st .write 16 0 []).sl 0 = none ∧
    Memory.read { st .write 16 0 [] with sl := Memory.cellsFrom 0 (List.replicate 15 0) }.sl 15 = none ∧
    (∀ x < cT.width, (Memory.read (drawn .write 8 7 0).sl x).isSome = true) ∧
    cT.height ≤ (drawn .write 8 7 0).y := by decide

theorem witness_RxbyteFaultsPastTheFrame :
    (st .read 16 0 [1]).rxq ≠ [] ∧ cT.frameBytes ≤ (st .read 16 0 [1]).rxCount ∧
    (st .read 16 0 [1]).phase = .read := by decide

theorem witness_ParametersNeverChange :
    (next? (step { st .wait 0 0 [] with env := [.linkByte 1] })).isSome = true := by decide

theorem witness_PixelsHaveTheirOwnBits :
    cT.legal = true ∧ 15 < cT.width ∧ 7 < cT.height ∧ byteIndex cT 15 7 = byteIndex cT 15 7 := by decide

theorem witness_AcknowledgementFormat : (next? (exec .ack (st .ack 16 0 []))).isSome = true := by decide

/-- The state in which a drawn frame is about to be acknowledged satisfies the invariant. -/
theorem witness_Inv_ack : { drawn .ack 0 7 8 with env := [.sequencer false] }.Inv where
  configLegal := by decide
  memory := ⟨by decide, by decide, by decide +kernel⟩
  phaseNamed := by decide
  countBound := by decide
  countShort := by decide
  countFull := by decide
  rowBound := by decide
  rowIdle := by decide
  queueBound := by decide
  fbFilled := by decide
  fbInside := by decide
  slInside := by decide
  slRow := by decide
  surfInside := by decide +kernel
  surfDrawn := by decide
  txAck := by decide
  dispForm := by decide
  dispOrder := by decide
  dispCount := by decide
  slColors := by decide
  surfColors := by decide +kernel
  dispColors := by decide

/-- The invariant in a state with a row of the scanline decoded, and its `WRROW` next. -/
theorem witness_Inv_write : { drawn .write 2 2 2 with env := [.sequencer false] }.Inv where
  configLegal := by decide
  memory := ⟨by decide, by decide, by decide⟩
  phaseNamed := by decide
  countBound := by decide
  countShort := by decide
  countFull := by decide
  rowBound := by decide
  rowIdle := by decide
  queueBound := by decide
  fbFilled := by decide
  fbInside := by decide
  slInside := by decide
  slRow := by decide
  surfInside := by decide
  surfDrawn := by decide
  txAck := by decide
  dispForm := by decide
  dispOrder := by decide
  dispCount := by decide
  slColors := by decide
  surfColors := by decide
  dispColors := by decide

/-- An idle state with the first arrival next, one turn of `SEQ` after each byte. -/
def idle : State :=
  { st .read 0 0 [] with
    env := frameF.flatMap (fun b => [.linkByte b, .sequencer false]) ++
      (List.replicate (2 * 8 + 3) (.sequencer false) ++ []) }

theorem witness_Inv_idle : idle.Inv where
  configLegal := by decide
  memory := ⟨by decide, by decide, by decide⟩
  phaseNamed := by decide
  countBound := by decide
  countShort := by decide
  countFull := by decide
  rowBound := by decide
  rowIdle := by decide
  queueBound := by decide
  fbFilled := by decide
  fbInside := by decide
  slInside := by decide
  slRow := by decide
  surfInside := by decide
  surfDrawn := by decide
  txAck := by decide
  dispForm := by decide
  dispOrder := by decide
  dispCount := by decide
  slColors := by decide
  surfColors := by decide
  dispColors := by decide

/-- Also the witness of the statements whose only other hypothesis is that a step answers a next state. -/
theorem witness_EveryStepKeepsTheInvariant :
    (next? (step { drawn .write 2 2 2 with env := [.sequencer false] })).isSome = true ∧
    (next? (step idle)).isSome = true := by decide

theorem witness_EveryStepKeepsMemoryCanonical :
    { drawn .write 2 2 2 with env := [.sequencer false] }.MemoryCanonical :=
  ⟨by decide, by decide, by decide⟩

theorem witness_InvariantStatesNeverStop : { drawn .ack 0 7 8 with env := [.sequencer false] }.Inv :=
  witness_Inv_ack

theorem witness_CountersFitTheirWidths : { drawn .write 2 2 2 with env := [.sequencer false] }.Inv :=
  witness_Inv_write

theorem witness_DerivedConstantsAreExact : cT.legal = true := by decide

theorem witness_BootScriptStartsTheFirstRead : Config.reference.legal = true := by decide

theorem witness_FlushForgetsTheQueue : cT.legal = true ∧ (st .flush 5 0 [1]).phase = .flush := by decide

/-- A turn of `SEQ` that sends, an arrival in the same phase, a reset. -/
theorem witness_NothingElseIsEverSent :
    [Choice.sequencer true, .linkByte 0xAA, .reset].map (fun c =>
      (next? (step { st .ack 16 0 [] with txlog := [0xAA], env := [c] })).map (·.txlog)) =
    [some [0xAA, 0xAA], some [0xAA], some []] := by decide

/-- A row write, an arrival in the same phase, a reset. -/
theorem witness_DisplayIsWrittenByWholeRows :
    [Choice.sequencer true, .linkByte 0xAA, .reset].map (fun c =>
      (next? (step { drawn .write 3 3 3 with env := [c] })).map (·.displog.length)) =
    [some 4, some 3, some 0] := by decide

/-- Each kind of choice, the last place of the queue and a full queue. -/
theorem witness_QueueKeepsArrivalOrder :
    (next? (step { st .read 0 0 [1, 2] with env := [.sequencer false] })).map (·.rxq) = some [2] ∧
    (next? (step { st .read 0 0 [1, 2, 3] with env := [.linkByte 4] })).map (·.rxq) = some [1, 2, 3, 4] ∧
    (next? (step { st .read 0 0 [1, 2, 3, 4] with env := [.linkByte 5] })).map (·.rxq) = some [1, 2, 3, 4] ∧
    (next? (step { st .read 0 0 [1, 2, 3, 4] with env := [.reset] })).map (·.rxq) = some [] := by decide

/-- The acknowledgement lengthens `TXLOG`, under a choice that is no reset. -/
theorem witness_AckComesAfterAllRows :
    (next? (step { drawn .ack 0 7 8 with env := [.sequencer false] })).map (·.txlog) = some [0xAA] ∧
    (drawn .ack 0 7 8).txlog = [] ∧
    nextChoice { drawn .ack 0 7 8 with env := [.sequencer false] } ≠ .reset := by decide

theorem witness_PhaseFollowsTheGraph : (next? (exec .wrrow (drawn .write 7 7 7))).isSome = true := by decide

/-- Into Waiting by a reset, out of it by `BOOT`. -/
theorem witness_WaitingIsEnteredByResetAndLeftByBoot :
    (next? (step { st .ack 16 0 [] with env := [.reset] })).map (·.phase) = some .wait ∧
    (next? (step { st .wait 0 0 [] with env := [.sequencer true] })).map (·.phase) = some .flush := by decide

/-- A byte that arrives during a render, and the `FLUSH` that discards it. -/
theorem witness_FrameBufferIsFixedOutsideARead :
    (next? (step { drawn .write 3 3 3 with env := [.linkByte 0x10] })).map (·.rxq) = some [0x10] ∧
    (next? (step { st .flush 16 0 [0x10] with env := [.sequencer false] })).map (·.rxq) = some [] := by decide

/-- A full queue before a `FLUSH`; a `GAP` with nothing taken and with all but one byte taken; the last place of the
queue at the last `RXBYTE`. -/
theorem witness_ArrivalRacesHaveTwoOutcomes :
    cT.legal = true ∧ (st .flush 5 0 [1, 2, 3, 4]).phase = .flush ∧ (st .read 0 0 []).rxq = [] ∧
    (st .read 15 0 []).rxq = [] ∧ (st .read 15 0 []).rxCount ≠ cT.frameBytes ∧
    (st .read 15 0 [1, 2, 3]).rxq ≠ [] ∧ (st .read 15 0 [1, 2, 3]).rxq.length < cT.rxFifoDepth ∧
    (st .read 15 0 [1, 2, 3]).rxCount < cT.frameBytes := by decide

/-- Two states that differ in payload only, with the last byte of the frame about to be taken. -/
theorem witness_PayloadNeverAffectsControl :
    State.SameControl { st .read 15 0 [0x81] with fb := [(0, 1)], env := [.sequencer false, .linkByte 1] }
      { st .read 15 0 [0x7E] with fb := [(0, 2)], env := [.sequencer false, .linkByte 2] } where
  cfg := rfl
  phase := rfl
  rxCount := rfl
  y := rfl
  fb := fun a => by by_cases h : 0 = a <;> simp [Memory.read, h]
  sl := fun _ => rfl
  rxq := rfl
  txlog := rfl
  displog := rfl
  env := rfl
  clock := rfl

theorem witness_OnlyThreeStepsAreObservable :
    (next? (exec .rxabandon (st .read 5 0 []))).isSome = true ∧
    (next? (exec (.linkbyte 1) (drawn .write 3 3 3))).isSome = true := by decide

/-- An arrival with one place left, in a read; a schedule with no byte, and one with all but one byte of a frame. -/
theorem witness_PremisesKeepEveryByte :
    nextChoice { st .read 3 0 [1, 2, 3] with env := [.linkByte 4] } = .linkByte 4 ∧
    { st .read 3 0 [1, 2, 3] with env := [.linkByte 4] }.phase = .read ∧
    rxAvail { st .read 3 0 [1, 2, 3] with env := [.linkByte 4] } < cT.rxFifoDepth ∧
    underPremises 0 [.sequencer true, .sequencer false, .sequencer true] (st .read 0 0 []) = true ∧
    underPremises 0 (slowSchedule.take 35) (st .read 0 0 []) = true ∧
    (arrivals (slowSchedule.take 35)).length = 15 := by decide +kernel

/-- A whole frame of 16 bytes and a short read of 2. -/
theorem witness_ReadStoresBytesInOrder :
    frameF.length ≤ cT.frameBytes ∧ (List.replicate 16 false).length = frameF.length ∧
    (st .read 0 0 (frameF ++ [0x33])).rxq = frameF ++ [0x33] ∧ (st .read 0 0 frameF).rxCount = 0 ∧
    { st .read 0 0 [1, 2] with env := [.sequencer true, .sequencer false] }.env =
      [true, false].map .sequencer ++ [] := by decide

theorem witness_ShortReadIsDroppedSilently :
    (st .read 15 0 []).idle ∧ (st .read 15 0 []).rxCount < cT.frameBytes ∧
    { st .read 15 0 [] with env := [.sequencer true, .sequencer false, .sequencer true] }.env =
      .sequencer true :: .sequencer false :: .sequencer true :: [] := by decide

theorem witness_RenderDrawsTheFrame :
    (full .decode 0).phase = .decode ∧ (full .decode 0).y = 0 ∧
    (∀ k < cT.frameBytes, (Memory.read (full .decode 0).fb k).isSome = true) ∧
    (List.replicate 16 true).length = 2 * cT.height := by decide

theorem witness_DrawnFrameReadsBackExactly :
    { drawn .ack 0 7 8 with env := [.sequencer false] }.phase = .ack ∧ 15 < cT.frameBytes := by decide

theorem witness_OneFrameIsOneGoodCycle :
    idle.idle ∧ idle.rxCount = 0 ∧ frameF.length = idle.cfg.frameBytes ∧
    idle.env = frameF.flatMap (fun b => [.linkByte b, .sequencer false]) ++
      (List.replicate (2 * idle.cfg.height + 3) (.sequencer false) ++ []) := by decide

/-- A whole frame; no byte and all but one. -/
theorem witness_CyclesHaveTheirShape :
    (st .read 0 0 frameF).rxq = frameF ∧ frameF.length = cT.frameBytes ∧
    (st .read 0 0 []).rxq.length < cT.frameBytes ∧ (frameF.take 15).length < cT.frameBytes ∧
    (st .read 0 0 (frameF.take 15)).rxq = frameF.take 15 ∧ (st .read 0 0 []).phase = .read := by decide

/-- Nothing taken, and all but one byte taken; each step of the empty bad cycle and a hold. -/
theorem witness_IdleStableRunsAreEmptyBadCycles :
    ∀ n ∈ [0, 15], (st .read n 0 []).idleStable [.sequencer true, .sequencer false, .sequencer true, .sequencer false] ∧
      (st .read n 0 []).rxCount < cT.frameBytes ∧
      Choice.reset ∉ [.sequencer true, .sequencer false, .sequencer true, Choice.sequencer false] := by decide

/-- The schedule meets the premises, and ends idle. -/
theorem witness_PremisedSchedulesAreOneGoodCycle :
    underPremises 0 slowSchedule (st .read 0 0 []) = true ∧ (arrivals slowSchedule).length = cT.frameBytes ∧
    (next? (runChoices slowSchedule (st .read 0 0 []))).map (fun t => decide t.idle) = some true := by
  decide +kernel

/-! ### A fair run: the frame `F`, then empty bad cycles for ever -/

/-- The choices of the run: `F`, a turn of `SEQ` after each byte, the render, and then a `GAP` always offered. -/
def loopChoices (n : Nat) : Choice :=
  (frameF.flatMap (fun b => [Choice.linkByte b, .sequencer false]) ++
    List.replicate 19 (Choice.sequencer false)).getD n (.sequencer true)

/-- The states of the run. -/
def loopStates : Nat → State
  | 0 => st .read 0 0 []
  | n + 1 => (next? (stepWith (loopChoices n) (loopStates n))).getD (loopStates n)

/-- The idle state after the frame. -/
def loopIdle : State := { drawn .read 0 7 8 with rxCount := 0, txlog := [0xAA] }

theorem loopStates_idle : loopStates 51 = loopIdle := by decide +kernel

theorem loopChoices_late (n : Nat) : loopChoices (51 + n) = .sequencer true := by
  rw [loopChoices, List.getD_eq_default]
  simp [frameF]

theorem loopStates_next {n : Nat} {t : State}
    (h : next? (stepWith (loopChoices n) (loopStates n)) = some t) : loopStates (n + 1) = t := by
  simp [loopStates, h]

/-- From the idle state on the run goes round the empty bad cycle. -/
theorem loopStates_cycle (k : Nat) : loopStates (51 + 3 * k) = loopIdle ∧
    loopStates (51 + 3 * k + 1) = { loopIdle with phase := .check } ∧
    loopStates (51 + 3 * k + 2) = { loopIdle with phase := .flush } := by
  have round {n : Nat} (h : loopStates (51 + n) = loopIdle) :
      loopStates (51 + n + 1) = { loopIdle with phase := .check } ∧
        loopStates (51 + n + 2) = { loopIdle with phase := .flush } ∧
        loopStates (51 + n + 3) = loopIdle := by
    have h1 : loopStates (51 + n + 1) = { loopIdle with phase := .check } :=
      loopStates_next (by rw [loopChoices_late, h]; decide +kernel)
    have h2 : loopStates (51 + n + 1 + 1) = { loopIdle with phase := .flush } :=
      loopStates_next (by rw [h1, Nat.add_assoc, loopChoices_late]; decide +kernel)
    have h3 : loopStates (51 + n + 1 + 1 + 1) = loopIdle :=
      loopStates_next (by rw [h2, Nat.add_assoc, loopChoices_late]; decide +kernel)
    exact ⟨h1, h2, h3⟩
  induction k with
  | zero => exact ⟨loopStates_idle, (round (n := 0) loopStates_idle).1, (round (n := 0) loopStates_idle).2.1⟩
  | succ k ih =>
    have h := (round ih.1).2.2
    rw [Nat.add_assoc] at h
    exact ⟨h, (round h).1, (round h).2.1⟩

/-- After the frame every state of the run is one of the three of the cycle. -/
theorem loopStates_late {n : Nat} (h : 51 ≤ n) :
    ∃ p ∈ [Phase.read, .check, .flush], loopStates n = { loopIdle with phase := p } := by
  obtain ⟨h0, h1, h2⟩ := loopStates_cycle ((n - 51) / 3)
  have hn : n = 51 + 3 * ((n - 51) / 3) ∨ n = 51 + 3 * ((n - 51) / 3) + 1 ∨
      n = 51 + 3 * ((n - 51) / 3) + 2 := by omega
  rcases hn with hn | hn | hn
  · exact ⟨.read, by decide, by rw [hn, h0]; rfl⟩
  · exact ⟨.check, by decide, by rw [hn, h1]⟩
  · exact ⟨.flush, by decide, by rw [hn, h2]⟩

theorem loop_early_steps :
    ∀ n < 51, (next? (stepWith (loopChoices n) (loopStates n))).isSome = true ∧
      (loopStates n).phase ≠ .wait ∧
      premisesAt (arrivals (firstChoices loopChoices n)).length (loopStates n) (loopChoices n) = true := by
  decide +kernel

theorem loop_isRun : IsRun loopChoices loopStates := by
  intro n
  have hs : (next? (stepWith (loopChoices n) (loopStates n))).isSome = true := by
    by_cases h : n < 51
    · exact (loop_early_steps n h).1
    · obtain ⟨m, rfl⟩ := Nat.exists_eq_add_of_le (Nat.le_of_not_lt h)
      obtain ⟨p, hp, he⟩ := loopStates_late (Nat.le_add_right 51 m)
      rw [loopChoices_late, he]
      exact (show ∀ p ∈ [Phase.read, .check, .flush],
        (next? (stepWith (.sequencer true) { loopIdle with phase := p })).isSome = true by
          decide +kernel) p hp
  obtain ⟨t, ht⟩ := Option.isSome_iff_exists.mp hs
  rw [loopStates_next ht]
  cases hr : stepWith (loopChoices n) (loopStates n) <;> rw [hr] at ht <;> simp_all [next?]

theorem loop_fair : Fair loopChoices loopStates where
  sequencer i n h := by
    have := h (51 + 3 * n) (by omega)
    rw [(loopStates_cycle n).1] at this
    rw [show decodeSel (selWord loopIdle false) = .error .awaitsByteOrGap by decide +kernel] at this
    cases this
  bootDone n h := by
    by_cases hn : n < 51
    · exact absurd h (loop_early_steps n hn).2.1
    · obtain ⟨p, hp, he⟩ := loopStates_late (Nat.le_of_not_lt hn)
      rw [State.waiting, he] at h
      have h' : p = .wait := h
      rw [h'] at hp
      exact absurd hp (show Phase.wait ∉ [Phase.read, .check, .flush] by decide)
  gap n h := by
    have := (h (51 + 3 * n + 1) (by omega)).1.1
    rw [(loopStates_cycle n).2.1] at this
    cases this

theorem loop_premises (n : Nat) :
    premisesAt (arrivals (firstChoices loopChoices n)).length (loopStates n) (loopChoices n) = true := by
  by_cases h : n < 51
  · exact (loop_early_steps n h).2.2
  · obtain ⟨m, rfl⟩ := Nat.exists_eq_add_of_le (Nat.le_of_not_lt h)
    have hl : (arrivals (firstChoices loopChoices (51 + m))).length = 16 := by
      clear h
      induction m with
      | zero => decide +kernel
      | succ m ih =>
        rw [← Nat.add_assoc, firstChoices, List.range_succ, List.map_append, arrivals,
          List.filterMap_append, List.length_append, ← arrivals, ← firstChoices, ih]
        simp [loopChoices_late, arrival]
    obtain ⟨p, -, he⟩ := loopStates_late (Nat.le_add_right 51 m)
    rw [hl, loopChoices_late, he, premisesAt, Bool.or_eq_true]
    exact .inr (show (16 == cT.frameBytes) = true by decide)

theorem loop_start_Inv : (loopStates 0).Inv where
  configLegal := by decide
  memory := ⟨by decide, by decide, by decide⟩
  phaseNamed := by decide
  countBound := by decide
  countShort := by decide
  countFull := by decide
  rowBound := by decide
  rowIdle := by decide
  queueBound := by decide
  fbFilled := by decide
  fbInside := by decide
  slInside := by decide
  slRow := by decide
  surfInside := by decide
  surfDrawn := by decide
  txAck := by decide
  dispForm := by decide
  dispOrder := by decide
  dispCount := by decide
  slColors := by decide
  surfColors := by decide
  dispColors := by decide

theorem witness_FairRunsFlushForEver :
    IsRun loopChoices loopStates ∧ Fair loopChoices loopStates ∧ (loopStates 0).Inv ∧
      ∀ m, 51 ≤ m → loopChoices m ≠ .reset :=
  ⟨loop_isRun, loop_fair, loop_start_Inv, fun m h => by
    obtain ⟨k, rfl⟩ := Nat.exists_eq_add_of_le h
    rw [loopChoices_late]; decide⟩

theorem witness_FairRunsReceiveTheFrame :
    IsRun loopChoices loopStates ∧ Fair loopChoices loopStates ∧ (loopStates 0).Inv ∧
      (loopStates 0).idle ∧ (loopStates 0).rxCount = 0 ∧
      (∀ k, premisesAt (arrivals (firstChoices loopChoices k)).length (loopStates k) (loopChoices k) = true) ∧
      (arrivals (firstChoices loopChoices 51)).length = (loopStates 0).cfg.frameBytes :=
  ⟨loop_isRun, loop_fair, loop_start_Inv, by decide, rfl, loop_premises, by decide +kernel⟩

end Sys2Proof.Machine.Tests
end

section
/-! PROOF. The parameters of a run (00_scope.md R5 to R7, 10_state.md R20): what the model does under
an illegal configuration, that every step keeps the parameters, and the derived constants. -/

namespace Sys2Proof.Machine

open Sys2Proof

/-! ### An illegal configuration is refused (R6) -/

/-- R6: illegal sizes make a configuration illegal, whatever its colours. -/
theorem legal_eq_false_of_sizes {c : Config}
    (h : c.width % 8 ≠ 0 ∨ c.height % 8 ≠ 0 ∨ c.width < 8 ∨ c.height < 8) : c.legal = false := by
  by_contra hne
  obtain ⟨⟨hw, hh, hw8, hh8⟩, -⟩ := (legal_iff c).mp (Bool.eq_true_of_not_eq_false hne)
  omega

theorem whenEnabled_of_illegal {s : State} (h : s.cfg.legal = false) (i : Instr) (r : Result) :
    whenEnabled i s r = .refused .illegalConfiguration := by
  simp [whenEnabled, h]

theorem hold_of_illegal {s : State} (h : s.cfg.legal = false) :
    hold s = .refused .illegalConfiguration := by
  simp [hold, h]

/-- Every arm of `exec` is guarded by its own enabling condition. -/
theorem exec_eq_whenEnabled (i : Instr) (s : State) : ∃ r, exec i s = whenEnabled i s r := by
  cases i <;> exact ⟨_, rfl⟩

theorem exec_of_illegal {s : State} (h : s.cfg.legal = false) (i : Instr) :
    exec i s = .refused .illegalConfiguration := by
  obtain ⟨r, hr⟩ := exec_eq_whenEnabled i s
  rw [hr, whenEnabled_of_illegal h]

/-- A step runs an operation or holds, and both are refused. -/
theorem step_of_illegal {s : State} (h : s.cfg.legal = false) :
    step s = .refused .illegalConfiguration := by
  have ht : (takeChoice s).cfg.legal = false := by rw [takeChoice_cfg, h]
  unfold step
  split
  · exact exec_of_illegal ht _
  · exact hold_of_illegal ht

/-- Settles O21: sizes that break R6 make the configuration illegal, and under an illegal configuration
neither `exec` nor `step` gets past its guard. -/
theorem illegalSizesAreRefused : Obligations.IllegalSizesAreRefused := by
  intro s i hsizes
  have hl : s.cfg.legal = false := legal_eq_false_of_sizes hsizes
  exact ⟨exec_of_illegal hl i, step_of_illegal hl⟩

/-! ### Every step keeps the parameters (R5, R20) -/

@[simp] theorem rxArrive_cfg (s : State) (b : Byte) : (rxArrive s b).cfg = s.cfg := rfl

/-- No operation changes a parameter. -/
theorem exec_next_cfg {i : Instr} {s t : State} (h : exec i s = .next t) : t.cfg = s.cfg := by
  cases i with
  | boot => obtain ⟨-, rfl⟩ := execBoot_next h; simp
  | flush => obtain ⟨-, rfl⟩ := execFlush_next h; simp
  | rxbyte => obtain ⟨-, b, q, -, -, rfl⟩ := execRxbyte_next h; simp
  | rxabandon => obtain ⟨-, -, rfl⟩ := execRxabandon_next h; simp
  | check => obtain ⟨-, rfl⟩ := execCheck_next h; split <;> simp
  | decode => obtain ⟨-, row, -, -, -, rfl⟩ := execDecode_next h; simp
  | wrrow => obtain ⟨-, -, row, -, -, rfl⟩ := execWrrow_next h; simp
  | ack => obtain ⟨-, rfl⟩ := execAck_next h; simp
  | linkbyte b => rw [execLinkbyte_next h, rxArrive_cfg]
  | reset => rw [execReset_next h, resetBlock_cfg]

/-- R20: the parameters are constants of a run. -/
theorem step_next_cfg {s t : State} (h : step s = .next t) : t.cfg = s.cfg := by
  obtain ⟨i, -, hi⟩ | ⟨e, -, rfl⟩ := step_next h
  · rw [exec_next_cfg hi, takeChoice_cfg]
  · exact takeChoice_cfg s

/-- Settles O25: the reference values are those of the definition, and a step, being an operation or a
hold, keeps the parameters. -/
theorem parametersNeverChange : Obligations.ParametersNeverChange :=
  ⟨⟨rfl, rfl, rfl, rfl⟩, fun _ _ => step_next_cfg⟩

/-! ### The derived constants (R7) -/

/-- R7: a frame of `W * H` pixels is `FRAME_BYTES` whole bytes. -/
theorem eight_mul_frameBytes {c : Config} (h : c.legal = true) :
    8 * c.frameBytes = c.width * c.height := by
  calc 8 * c.frameBytes = 8 * (c.rowBytes * c.height) := by rw [frameBytes_eq h]
    _ = 8 * c.rowBytes * c.height := (Nat.mul_assoc ..).symm
    _ = c.width * c.height := by rw [← width_eq h]

/-- Settles O26: the reference values by evaluation; the exact divisions because the rows of a legal
configuration are whole bytes. -/
theorem derivedConstantsAreExact : Obligations.DerivedConstantsAreExact :=
  ⟨by decide, fun _ h => ⟨(width_eq h).symm, eight_mul_frameBytes h, frameBytes_eq h⟩⟩

end Sys2Proof.Machine
end

section
/-! PROOF. The state after reset (10_state.md R22), and the stops on an element that holds no value and
on a row that does not exist (R22, 20_memory.md R30). -/

namespace Sys2Proof.Machine

open Sys2Proof

variable {s : State}

/-! ### The state after reset (R22) -/

/-- A pixel not written since the reset shows the free value of its epoch (log 6). -/
theorem surfPixel_of_unwritten {x y : Nat} (h : Memory.read s.surf (surfIndex s.cfg x y) = none) :
    surfPixel s x y = Config.surfaceContent s.epoch x y % 2 ^ s.cfg.colorBits := by
  simp [surfPixel, h]

/-- Settles O19: every register by the definition of the reset state, every space because it lists no
element. -/
theorem resetStateHasTheResetValues : Obligations.ResetStateHasTheResetValues :=
  ⟨rfl, rfl, rfl, rfl, rfl, rfl, rfl, Memory.read_nil, Memory.read_nil,
    fun _ _ => surfPixel_of_unwritten (Memory.read_nil _)⟩

/-! ### The stops of `DECODE` and `WRROW` (R22, R30) -/

/-- An operation that is enabled under a legal configuration does what its arm says. -/
theorem whenEnabled_of_enabled {i : Instr} (hl : s.cfg.legal = true) (he : enabled i s = true)
    (r : Result) : whenEnabled i s r = r := by
  simp [whenEnabled, hl, he]

theorem fbReadRun_noValue {a n i : Nat} (hin : a + n ≤ s.cfg.frameBytes) (hi : i < n)
    (hv : Memory.read s.fb (a + i) = none) : fbReadRun s a n = .error .fbNoValue := by
  simp [fbReadRun, hin, Memory.readRun_eq_none s.fb a n i hi hv]

theorem fbReadRun_outOfRange {a n : Nat} (h : s.cfg.frameBytes < a + n) :
    fbReadRun s a n = .error .fbOutOfRange := by
  simp [fbReadRun, Nat.not_le.mpr h]

/-- R24: the bytes of a row that does not exist are not all bytes of the frame. -/
theorem row_outside {c : Config} (hl : c.legal = true) {y : Nat} (hy : c.height ≤ y) :
    c.frameBytes < rowBase c y + c.rowBytes := by
  have hpos : 0 < c.rowBytes := rowBytes_pos hl
  have hle : c.height * c.rowBytes ≤ rowBase c y := Nat.mul_le_mul_right _ hy
  rw [frameBytes_eq hl, Nat.mul_comm]
  omega

theorem slReadRow_noValue {x : Nat} (hx : x < s.cfg.width) (hv : Memory.read s.sl x = none) :
    slReadRow s = .error .slNoValue := by
  have hrun := Memory.readRun_eq_none s.sl 0 s.cfg.width x hx (by rwa [Nat.zero_add])
  simp [slReadRow, hrun]

theorem slReadRow_of_filled (h : ∀ x < s.cfg.width, (Memory.read s.sl x).isSome = true) :
    ∃ row, slReadRow s = .ok row := by
  obtain ⟨row, hrow⟩ := Memory.readRun_isSome s.sl 0 s.cfg.width
    (fun x hx => by rw [Nat.zero_add]; exact h x hx)
  exact ⟨row, by simp [slReadRow, hrow]⟩

theorem dispWriteRow_outOfRange {x0 y0 n : Nat} {row : List Color} (h : s.cfg.height ≤ y0) :
    dispWriteRow s x0 y0 n row = .error .surfOutOfRange := by
  simp [dispWriteRow, Nat.not_lt.mpr h]

theorem execDecode_of_read_error {f : Fault} (hl : s.cfg.legal = true) (hp : s.phase = .decode)
    (h : fbReadRun s (rowBase s.cfg s.y) s.cfg.rowBytes = .error f) : execDecode s = .fault f := by
  rw [execDecode, whenEnabled_of_enabled hl (by simp [enabled, hp]), h]

/-- Settles O22: a row of the frame is read as one run, which a missing byte spoils, and the run of a row
past the last leaves the frame buffer. -/
theorem decodeFaultsOnMissingBytes : Obligations.DecodeFaultsOnMissingBytes := by
  intro s hl hp
  constructor
  · intro i hi hy hv
    exact execDecode_of_read_error hl hp (fbReadRun_noValue (row_inside hl hy) hi hv)
  · intro hy
    exact execDecode_of_read_error hl hp (fbReadRun_outOfRange (row_outside hl hy))

/-- Settles O23: `SL` is read before the display is asked for the row (log 18), so a missing pixel stops
`WRROW` first, and a row that does not exist stops it once every pixel holds a value. -/
theorem wrrowFaultsOnMissingPixels : Obligations.WrrowFaultsOnMissingPixels := by
  intro s hl hp
  have he : enabled .wrrow s = true := by simp [enabled, hp]
  constructor
  · intro x hx hv
    rw [exec, execWrrow, whenEnabled_of_enabled hl he, slReadRow_noValue hx hv]
  · intro hsl hy
    obtain ⟨row, hrow⟩ := slReadRow_of_filled hsl
    rw [exec, execWrrow, whenEnabled_of_enabled hl he, hrow]
    simp only [dispWriteRow_outOfRange hy]

end Sys2Proof.Machine
end

section
/-! PROOF. The logical states (10_state.md R23, 60_exceptions.md R88): the phase in which every step
leaves the block. -/

namespace Sys2Proof.Machine

open Sys2Proof

variable {s t : State}

@[simp] theorem rxArrive_phase (s : State) (b : Byte) : (rxArrive s b).phase = s.phase := rfl

/-- R74: an operation leads where the graph of `phase` says. -/
theorem exec_next_phase {i : Instr} (h : exec i s = .next t) : t.phase = phaseAfter s i := by
  cases i with
  | boot => obtain ⟨-, rfl⟩ := execBoot_next h; rfl
  | flush => obtain ⟨-, rfl⟩ := execFlush_next h; rfl
  | rxbyte => obtain ⟨hp, b, q, -, -, rfl⟩ := execRxbyte_next h; simp [phaseAfter, hp]
  | rxabandon => obtain ⟨-, -, rfl⟩ := execRxabandon_next h; rfl
  | check => obtain ⟨-, rfl⟩ := execCheck_next h; simp only [phaseAfter]; split <;> rfl
  | decode => obtain ⟨-, row, -, -, -, rfl⟩ := execDecode_next h; rfl
  | wrrow => obtain ⟨-, -, row, -, -, rfl⟩ := execWrrow_next h; simp [phaseAfter]
  | ack => obtain ⟨-, rfl⟩ := execAck_next h; rfl
  | linkbyte b => rw [execLinkbyte_next h]; rfl
  | reset => rw [execReset_next h]; rfl

/-- R74: on the graph of `phase` only `RESET` leads to Waiting, and `LINKBYTE` moves nothing. -/
theorem phaseAfter_ne_wait {i : Instr} (hr : i ≠ .reset) (hb : ∀ b, i ≠ .linkbyte b) :
    phaseAfter s i ≠ .wait := by
  cases i with
  | rxbyte | check | wrrow => simp only [phaseAfter]; split <;> simp
  | boot | flush | rxabandon | decode | ack => simp [phaseAfter]
  | linkbyte b => exact absurd rfl (hb b)
  | reset => exact absurd rfl hr

/-- Between Waiting and Streaming a step moves by a reset or by `BOOT` only; every other step stays on its
side. -/
theorem step_waiting_cases (h : step s = .next t) :
    (nextChoice s = .reset ∧ t.phase = .wait) ∨
    (nextChoice s = .sequencer true ∧ s.phase = .wait ∧ t.phase = .flush) ∨
    (s.phase = .wait ↔ t.phase = .wait) := by
  have stays {i : Instr} (hs : s.phase ≠ .wait) (hx : exec i (takeChoice s) = .next t)
      (hr : i ≠ .reset) (hb : ∀ b, i ≠ .linkbyte b) : s.phase = .wait ↔ t.phase = .wait :=
    iff_of_false hs (exec_next_phase hx ▸ phaseAfter_ne_wait hr hb)
  obtain ⟨b, -, rfl⟩ | ⟨hc, rfl⟩ | ⟨e, hc, hop⟩ := step_cases h
  · exact .inr (.inr (by simp))
  · exact .inl ⟨hc, rfl⟩
  · obtain ⟨hp, rfl, hx⟩ | hop := hop
    · exact .inr (.inl ⟨hc, hp, exec_next_phase (i := .boot) hx⟩)
    · refine .inr (.inr ?_)
      obtain ⟨hp, hx⟩ | ⟨hp, -, hx⟩ | ⟨hp, -, -, hx⟩ | ⟨hp, hx⟩ | ⟨hp, hx⟩ | ⟨hp, hx⟩ | ⟨hp, hx⟩ |
        ⟨-, rfl⟩ := hop
      · exact stays (i := .flush) (by simp [hp]) hx (by simp) (by simp)
      · exact stays (i := .rxbyte) (by simp [hp]) hx (by simp) (by simp)
      · exact stays (i := .rxabandon) (by simp [hp]) hx (by simp) (by simp)
      · exact stays (i := .check) (by simp [hp]) hx (by simp) (by simp)
      · exact stays (i := .decode) (by simp [hp]) hx (by simp) (by simp)
      · exact stays (i := .wrrow) (by simp [hp]) hx (by simp) (by simp)
      · exact stays (i := .ack) (by simp [hp]) hx (by simp) (by simp)
      · simp

/-- Settles O35: of the three kinds of step, a reset is the only one that can lead into Waiting and
`BOOT` the only one that can lead out. -/
theorem waitingIsEnteredByResetAndLeftByBoot : Obligations.WaitingIsEnteredByResetAndLeftByBoot := by
  intro s t h
  obtain ⟨hc, ht⟩ | ⟨hc, hs, ht⟩ | hiff := step_waiting_cases h
  · exact ⟨fun _ _ => hc, fun _ hst => absurd ht hst⟩
  · exact ⟨fun hst _ => absurd hs hst, fun _ _ => ⟨hc, ht⟩⟩
  · exact ⟨fun hst hw => absurd (hiff.mpr hw) hst, fun hw hst => absurd (hiff.mp hw) hst⟩

end Sys2Proof.Machine
end

section
/-! PROOF. The invariant of 10_state.md R21: it holds after reset, every operation keeps it, and under it
the counters fit their widths. -/

namespace Sys2Proof.Machine

open Sys2Proof

variable {s t : State}

/-! ### The widths of the counters (R7, decision D18) -/

/-- The search for `ceil(log2(n))` ends at a power that reaches `n`, when it looks far enough. -/
theorem le_two_pow_ceilLog2From {n : Nat} :
    ∀ {fuel k : Nat}, n ≤ 2 ^ (k + fuel) → n ≤ 2 ^ ceilLog2From n fuel k
  | 0, _, h => h
  | fuel + 1, k, h => by
    rw [ceilLog2From]
    split
    · assumption
    · exact le_two_pow_ceilLog2From (by rwa [Nat.add_right_comm, Nat.add_assoc])

theorem le_two_pow_ceilLog2 (n : Nat) : n ≤ 2 ^ ceilLog2 n :=
  le_two_pow_ceilLog2From (by rw [Nat.zero_add]; exact Nat.lt_two_pow_self.le)

/-- Settles O33: the invariant bounds the counters by `FRAME_BYTES` and by `H`, and the widths are the
logarithms of `FRAME_BYTES + 1` and of `H`. -/
theorem countersFitTheirWidths : Obligations.CountersFitTheirWidths := by
  intro s h
  have hcount : s.rxCount < s.cfg.frameBytes + 1 := Nat.lt_succ_of_le h.countBound
  exact ⟨hcount.trans_le (le_two_pow_ceilLog2 _), h.rowBound.trans_le (le_two_pow_ceilLog2 _)⟩

/-! ### Facts the invariant turns on -/

theorem Memory.mem_of_read {α : Type} {m : Memory α} {a : Nat} {v : α}
    (h : Memory.read m a = some v) : (a, v) ∈ m := by
  induction m with
  | nil => simp at h
  | cons c m ih =>
    obtain ⟨k, w⟩ := c
    simp only [Memory.read] at h
    split at h
    · simp_all
    · exact List.mem_cons_of_mem _ (ih h)

/-- R46: a decoded row has the two colours only. -/
theorem isColor_of_mem_rowColors {c : Config} {row : List Byte} {v : Color}
    (h : v ∈ rowColors c row) : isColor c v := by
  obtain ⟨x, -, rfl⟩ := List.mem_map.mp h
  exact colorOf_isOne _

/-- R46: a row read from a space of the two colours has the two colours only. -/
theorem isColor_of_mem_read_row {c : Config} {m : Memory Color} {row : List Color}
    (hm : ∀ e ∈ m, isColor c e.2) (hl : row.length = c.width)
    (hr : ∀ x, x < c.width → Memory.read m x = row[x]?) {v : Color} (hv : v ∈ row) : isColor c v := by
  obtain ⟨x, hx, rfl⟩ := List.mem_iff_getElem.mp hv
  exact hm _ (Memory.mem_of_read ((hr x (hl ▸ hx)).trans (List.getElem?_eq_getElem hx)))

/-- A row written to the surface is read back from its row, and every other row is as before (R65). -/
theorem read_surf_writeRow {c : Config} {m : Memory Color} {row : List Color} {x y r : Nat}
    (hl : row.length = c.width) (hx : x < c.width) :
    Memory.read (Memory.writeRun m (surfIndex c 0 y) row) (surfIndex c x r) =
      if r = y then row[x]? else Memory.read m (surfIndex c x r) := by
  rw [Memory.read_writeRun, hl]
  simp only [surfIndex_in_row hx]
  split
  · next h => subst h; simp [surfIndex]
  · rfl

/-- R66, one row further: with row `y` of the frame written below the rows before it, the rows up to and
with `y` show the frame. -/
theorem surf_drawn_succ {c : Config} {m : Memory Color} {fb : List Host.Cell} {row : List Color} {y : Nat}
    (hl : row.length = c.width)
    (hm : ∀ r < y, ∀ x < c.width, Memory.read m (surfIndex c x r) = framePixel c fb x r)
    (hrow : ∀ x < c.width, row[x]? = framePixel c fb x y) :
    ∀ r < y + 1, ∀ x < c.width,
      Memory.read (Memory.writeRun m (surfIndex c 0 y) row) (surfIndex c x r) = framePixel c fb x r := by
  intro r hr x hx
  rw [read_surf_writeRow hl hx]
  split
  · next heq => rw [hrow x hx, heq]
  · next hne => exact hm r (by omega) x hx

/-- R21 item 9: a log whose rows go round in order goes on in order. -/
theorem disp_order_append {height : Nat} {log : List DispTxn} {e : DispTxn}
    (h : ∀ k < log.length, (log[k]?).map (·.y0) = some (k % height))
    (he : log.length % height = e.y0) :
    ∀ k < (log ++ [e]).length, ((log ++ [e])[k]?).map (·.y0) = some (k % height) := by
  intro k hk
  rw [List.length_append, List.length_singleton] at hk
  obtain hlt | rfl := Nat.lt_succ_iff_lt_or_eq.mp hk
  · rw [List.getElem?_append_left hlt, h k hlt]
  · simp [he]

/-- R24: a row of the surface ends inside it. -/
theorem surf_row_inside {c : Config} {y : Nat} (hy : y < c.height) :
    surfIndex c 0 y + c.width ≤ c.width * c.height := by
  rw [surfIndex, Nat.add_zero, ← Nat.succ_mul, Nat.mul_comm c.width]
  exact Nat.mul_le_mul_right _ hy

theorem State.rowsDrawn_of_not_drawing (h : s.drawing = false) : s.rowsDrawn = 0 := by
  cases hp : s.phase <;> simp_all [State.drawing, State.rowsDrawn]

/-! ### The updates that keep the invariant -/

/-- The block right after reset, under any legal parameters. -/
theorem State.resetOf_inv {c : Config} (hl : c.legal = true) : (State.resetOf c).Inv where
  configLegal := hl
  memory := ⟨.nil, .nil, .nil⟩
  phaseNamed := by simp [State.resetOf]
  countBound := Nat.zero_le _
  countShort := by simp [State.resetOf]
  countFull := by simp [State.resetOf, State.drawing]
  rowBound := height_pos hl
  rowIdle _ _ := rfl
  queueBound := Nat.zero_le _
  fbFilled := by simp [State.resetOf]
  fbInside := by simp [State.resetOf]
  slInside := by simp [State.resetOf]
  slRow := by simp [State.resetOf]
  surfInside := by simp [State.resetOf]
  surfDrawn := by simp [State.resetOf, State.rowsDrawn]
  txAck := by simp [State.resetOf]
  dispForm := by simp [State.resetOf]
  dispOrder := by simp [State.resetOf]
  dispCount := rfl
  slColors := by simp [State.resetOf]
  surfColors := by simp [State.resetOf]
  dispColors := by simp [State.resetOf]

/-- Settles O29: the reference configuration is legal, and every legal configuration is reset into the
invariant. -/
theorem resetSatisfiesTheInvariant : Obligations.ResetSatisfiesTheInvariant :=
  State.resetOf_inv (by decide)

/-- The invariant says nothing of the count of resets, the environment's choices and their counter. -/
theorem State.Inv.resetBlock (h : s.Inv) : (resetBlock s).Inv :=
  { State.resetOf_inv h.configLegal with memory := ⟨.nil, .nil, .nil⟩ }

theorem State.Inv.takeChoice (h : s.Inv) : (takeChoice s).Inv := by
  cases he : s.env with
  | nil => rw [takeChoice_nil s he]; exact { h with memory := { h.memory with } }
  | cons c cs => rw [takeChoice_cons s c cs he]; exact { h with memory := { h.memory with } }

theorem State.Inv.setRxq (h : s.Inv) {q : List Byte} (hq : q.length ≤ s.cfg.rxFifoDepth) :
    (s.setRxq q).Inv :=
  { h with memory := { h.memory with }, queueBound := hq }

/-- R54: an arrival is queued where there is room, and else lost. -/
theorem State.Inv.rxArrive (h : s.Inv) (b : Byte) : (rxArrive s b).Inv := by
  rcases Nat.lt_or_ge s.rxq.length s.cfg.rxFifoDepth with hroom | hfull
  · rw [rxArrive_room hroom]
    exact h.setRxq (by simpa using hroom)
  · rwa [rxArrive_full hfull]

theorem State.Inv.y_of_not_drawing (h : s.Inv) (hd : s.drawing = false) : s.y = 0 := by
  simp only [State.drawing, Bool.or_eq_false_iff, beq_eq_false_iff_ne] at hd
  obtain ⟨⟨hdec, hwr⟩, -⟩ := hd
  exact h.rowIdle hdec hwr

/-- Outside a render `phase` may become any phase outside one; a read is entered with a count that is
not complete. -/
theorem State.Inv.setPhase (h : s.Inv) {p : Phase} (hs : s.drawing = false)
    (hread : p = .read → s.rxCount < s.cfg.frameBytes := by simp)
    (hp : p ≠ .reserved := by simp) (ht : (s.setPhase p).drawing = false := by simp [State.drawing]) :
    (s.setPhase p).Inv :=
  have hrows : (s.setPhase p).rowsDrawn = 0 := State.rowsDrawn_of_not_drawing ht
  { h with
    memory := { h.memory with }
    phaseNamed := hp
    countShort := hread
    countFull := by simp [ht]
    rowIdle := fun _ _ => h.y_of_not_drawing hs
    slRow := by rintro rfl; simp [State.drawing] at ht
    surfDrawn := by simp [hrows]
    dispCount := by
      have hc := h.dispCount
      rw [State.rowsDrawn_of_not_drawing hs] at hc
      rw [hrows]; exact hc }

/-- Outside a render and a read the count may drop to 0. -/
theorem State.Inv.setRxCount_zero (h : s.Inv) (hs : s.drawing = false) : (s.setRxCount 0).Inv :=
  { h with
    memory := { h.memory with }
    countBound := Nat.zero_le _
    countShort := fun _ => frameBytes_pos h.configLegal
    countFull := fun hd => absurd (hs.symm.trans hd) (by simp)
    fbFilled := by simp }

/-- R56, with the phase already at `CHECK`: the next byte of the frame is stored and counted. -/
theorem State.Inv.storeByte (h : s.Inv) (hp : s.phase = .check) (hlt : s.rxCount < s.cfg.frameBytes)
    (b : Byte) : ((s.setFb (Memory.write s.fb s.rxCount b)).setRxCount (s.rxCount + 1)).Inv :=
  { h with
    memory := { h.memory with fb := Memory.write_wf h.memory.fb _ _ }
    countBound := hlt
    countShort := by simp [hp]
    countFull := by simp [State.drawing, hp]
    fbFilled := fun i hi => by
      simp only [State.setRxCount_fb, State.setFb_fb, Memory.read_write]
      split
      · rfl
      · next hne =>
        have hi' : i < s.rxCount + 1 := hi
        exact h.fbFilled i (by omega)
    fbInside := Memory.writeRun_below h.fbInside hlt
    slRow := by simp [hp]
    surfDrawn := by simp [State.rowsDrawn, hp] }

/-- R64: the scanline takes the colours of row `y`. -/
theorem State.Inv.decodeRow (h : s.Inv) (hp : s.phase = .decode) {row : List Byte}
    (hl : row.length = s.cfg.rowBytes)
    (hr : ∀ i, i < s.cfg.rowBytes → Memory.read s.fb (rowBase s.cfg s.y + i) = row[i]?) :
    ((s.setSl (Memory.writeRun s.sl 0 (rowColors s.cfg row))).setPhase .write).Inv :=
  { h with
    memory := { h.memory with sl := Memory.writeRun_wf h.memory.sl _ _ }
    phaseNamed := by simp
    countShort := by simp
    countFull := fun _ => h.countFull (by simp [State.drawing, hp])
    rowIdle := by simp
    slInside := Memory.writeRun_below h.slInside (by simp)
    slRow := fun _ x hx => by
      have hx' : x < s.cfg.width := hx
      have hpix := framePixel_of_row hl hr (column_inside h.configLegal hx')
      have hsl : Memory.read (Memory.writeRun s.sl 0 (rowColors s.cfg row)) x =
          some (columnColor s.cfg row x) := by
        rw [Memory.read_writeRun, if_pos ⟨x.zero_le, by simpa using hx'⟩]
        exact rowColors_getElem? row hx'
      exact hsl.trans hpix.symm
    surfDrawn := fun r hr' => h.surfDrawn r (by simpa [State.rowsDrawn, hp] using hr')
    dispCount := by simpa [State.rowsDrawn, hp] using h.dispCount
    slColors := fun c hc => by
      obtain ⟨-, -, hv⟩ | hc := Memory.mem_writeRun hc
      · exact isColor_of_mem_rowColors hv
      · exact h.slColors c hc }

/-- The state once `row` is on row `y` of the display and its transaction in the log (R65). -/
def State.withRow (s : State) (row : List Color) : State :=
  { s with
    surf := Memory.writeRun s.surf (surfIndex s.cfg 0 s.y) row
    displog := s.displog ++ [⟨0, s.y, s.cfg.width, row⟩] }

@[simp] theorem State.withRow_cfg (s : State) (row : List Color) : (s.withRow row).cfg = s.cfg := rfl
@[simp] theorem State.withRow_y (s : State) (row : List Color) : (s.withRow row).y = s.y := rfl
@[simp] theorem State.withRow_txlog (s : State) (row : List Color) :
    (s.withRow row).txlog = s.txlog := rfl
@[simp] theorem State.withRow_displog (s : State) (row : List Color) :
    (s.withRow row).displog = s.displog ++ [⟨0, s.y, s.cfg.width, row⟩] := rfl

theorem execWrrow_next_withRow (h : execWrrow s = .next t) :
    s.phase = .write ∧ s.y < s.cfg.height ∧ ∃ row, row.length = s.cfg.width ∧
      (∀ x, x < s.cfg.width → Memory.read s.sl x = row[x]?) ∧ t = nextRow (s.withRow row) :=
  execWrrow_next h

/-- R65: row `y` goes from the scanline to the display; with `y'` and `p` the row and the phase that
follow it. -/
theorem State.Inv.writeRow (h : s.Inv) (hp : s.phase = .write) {row : List Color}
    (hl : row.length = s.cfg.width) (hr : ∀ x, x < s.cfg.width → Memory.read s.sl x = row[x]?)
    {y' : Nat} {p : Phase}
    (hnext : p = .ack ∧ y' = 0 ∧ s.y + 1 = s.cfg.height ∨
      p = .decode ∧ y' = s.y + 1 ∧ s.y + 1 < s.cfg.height) :
    (((s.withRow row).setY y').setPhase p).Inv :=
  have hpos : 0 < s.cfg.height := height_pos h.configLegal
  have hdrawn : (((s.withRow row).setY y').setPhase p).rowsDrawn = s.y + 1 := by
    obtain ⟨rfl, -, hlast⟩ | ⟨rfl, rfl, -⟩ := hnext
    · exact hlast.symm
    · rfl
  have hlen : s.displog.length = s.cfg.height * s.txlog.length + s.y := by
    simpa [State.rowsDrawn, hp] using h.dispCount
  have hmod : s.displog.length % s.cfg.height = s.y := by
    rw [hlen, Nat.mul_add_mod, Nat.mod_eq_of_lt h.rowBound]
  have hcolors : ∀ v ∈ row, isColor s.cfg v := fun _ => isColor_of_mem_read_row h.slColors hl hr
  { h with
    memory := { h.memory with surf := Memory.writeRun_wf h.memory.surf _ _ }
    phaseNamed := by obtain ⟨rfl, -⟩ | ⟨rfl, -⟩ := hnext <;> simp
    countShort := by obtain ⟨rfl, -⟩ | ⟨rfl, -⟩ := hnext <;> simp
    countFull := fun _ => h.countFull (by simp [State.drawing, hp])
    rowBound := by
      simp only [State.setPhase_y, State.setY_y, State.setPhase_cfg, State.setY_cfg, State.withRow_cfg]
      omega
    rowIdle := fun hdec _ => by
      obtain ⟨-, hy, -⟩ | ⟨rfl, -⟩ := hnext
      · exact hy
      · exact absurd rfl hdec
    slRow := by obtain ⟨rfl, -⟩ | ⟨rfl, -⟩ := hnext <;> simp
    surfInside := Memory.writeRun_below h.surfInside (hl ▸ surf_row_inside h.rowBound)
    surfDrawn := fun r hrow => surf_drawn_succ hl
      (fun r hr' => h.surfDrawn r (by simpa [State.rowsDrawn, hp] using hr'))
      (fun x hx => (hr x hx).symm.trans (h.slRow hp x hx)) r
      (hrow.trans_eq hdrawn)
    dispForm := fun e he => by
      obtain he | rfl := List.mem_append.mp he |>.imp_right List.mem_singleton.mp
      · exact h.dispForm e he
      · exact ⟨rfl, rfl, hl⟩
    dispOrder := disp_order_append h.dispOrder hmod
    dispCount := by
      rw [hdrawn]
      simp [hlen, Nat.add_assoc]
    surfColors := fun e he => by
      obtain ⟨-, -, hv⟩ | he := Memory.mem_writeRun he
      · exact hcolors _ hv
      · exact h.surfColors e he
    dispColors := fun e he => by
      obtain he | rfl := List.mem_append.mp he |>.imp_right List.mem_singleton.mp
      · exact h.dispColors e he
      · exact hcolors }

/-- R58: a complete frame is drawn from row 0. -/
theorem State.Inv.startRender (h : s.Inv) (hp : s.phase = .check)
    (hfull : s.rxCount = s.cfg.frameBytes) : ((s.setY 0).setPhase .decode).Inv :=
  have hd : s.drawing = false := by simp [State.drawing, hp]
  { h with
    memory := { h.memory with }
    phaseNamed := by simp
    countShort := by simp
    countFull := fun _ => hfull
    rowBound := height_pos h.configLegal
    rowIdle := by simp
    slRow := by simp
    surfDrawn := by simp [State.rowsDrawn]
    dispCount := by
      have hc := h.dispCount
      rwa [State.rowsDrawn_of_not_drawing hd] at hc }

/-- R59, R36: the acknowledgement makes the `H` rows of the frame a frame of the logs. -/
theorem State.Inv.acknowledge (h : s.Inv) (hp : s.phase = .ack) :
    ((txEmit s s.cfg.ackByte).setPhase .flush).Inv :=
  { h with
    memory := { h.memory with }
    phaseNamed := by simp
    countShort := by simp
    countFull := by simp [State.drawing]
    rowIdle := fun _ _ => h.rowIdle (by simp [hp]) (by simp [hp])
    slRow := by simp
    surfDrawn := by simp [State.rowsDrawn]
    txAck := fun b hb => by
      obtain hb | rfl := List.mem_append.mp hb |>.imp_right List.mem_singleton.mp
      · exact h.txAck b hb
      · rfl
    dispCount := by
      have hc := h.dispCount
      simp only [State.rowsDrawn, hp] at hc
      simp [State.rowsDrawn, hc, Nat.mul_succ] }

/-! ### Every operation keeps the invariant -/

theorem State.Inv.execBoot (h : s.Inv) (hx : execBoot s = .next t) : t.Inv := by
  obtain ⟨hp, rfl⟩ := execBoot_next hx
  exact h.setPhase (by simp [State.drawing, hp])

theorem State.Inv.execFlush (h : s.Inv) (hx : execFlush s = .next t) : t.Inv := by
  obtain ⟨hp, rfl⟩ := execFlush_next hx
  have hd : s.drawing = false := by simp [State.drawing, hp]
  exact ((h.setRxq (q := []) (Nat.zero_le _)).setRxCount_zero hd).setPhase hd
    (fun _ => frameBytes_pos h.configLegal)

/-- The byte is stored as from `CHECK`, and while the count is not complete the read goes on. -/
theorem State.Inv.execRxbyte (h : s.Inv) (hx : execRxbyte s = .next t) : t.Inv := by
  obtain ⟨hp, b, q, hq, hlt, rfl⟩ := execRxbyte_next hx
  have hroom : q.length ≤ s.cfg.rxFifoDepth := by
    have hb := h.queueBound
    rw [hq, List.length_cons] at hb
    omega
  have hcheck : ((s.setRxq q).setPhase .check).Inv :=
    (h.setRxq hroom).setPhase (by simp [State.drawing, hp])
  have hstored := hcheck.storeByte rfl hlt b
  rw [countByte_eq]
  split
  · exact hstored
  · next hne =>
    have hread := hstored.setPhase (p := .read) (by simp [State.drawing])
      (fun _ => Nat.lt_of_le_of_ne hlt hne)
    rwa [show .read = s.phase from hp.symm] at hread

theorem State.Inv.execRxabandon (h : s.Inv) (hx : execRxabandon s = .next t) : t.Inv := by
  obtain ⟨hp, -, rfl⟩ := execRxabandon_next hx
  exact h.setPhase (by simp [State.drawing, hp])

theorem State.Inv.execCheck (h : s.Inv) (hx : execCheck s = .next t) : t.Inv := by
  obtain ⟨hp, rfl⟩ := execCheck_next hx
  split
  · next hfull => exact h.startRender hp hfull
  · exact h.setPhase (by simp [State.drawing, hp])

theorem State.Inv.execDecode (h : s.Inv) (hx : execDecode s = .next t) : t.Inv := by
  obtain ⟨hp, row, -, hl, hr, rfl⟩ := execDecode_next hx
  exact h.decodeRow hp hl hr

theorem State.Inv.execWrrow (h : s.Inv) (hx : execWrrow s = .next t) : t.Inv := by
  obtain ⟨hp, hy, row, hl, hr, rfl⟩ := execWrrow_next_withRow hx
  rw [nextRow_eq]
  split
  · next hlast =>
    rw [State.withRow_y, State.withRow_cfg] at hlast
    exact h.writeRow hp hl hr (.inl ⟨rfl, rfl, by omega⟩)
  · next hnot =>
    rw [State.withRow_y, State.withRow_cfg] at hnot
    exact h.writeRow hp hl hr (.inr ⟨rfl, rfl, by omega⟩)

/-- R21: every operation keeps the invariant. -/
theorem State.Inv.exec (h : s.Inv) {i : Instr} (hx : exec i s = .next t) : t.Inv := by
  cases i with
  | boot => exact h.execBoot hx
  | flush => exact h.execFlush hx
  | rxbyte => exact h.execRxbyte hx
  | rxabandon => exact h.execRxabandon hx
  | check => exact h.execCheck hx
  | decode => exact h.execDecode hx
  | wrrow => exact h.execWrrow hx
  | ack => obtain ⟨hp, rfl⟩ := execAck_next hx; exact h.acknowledge hp
  | linkbyte b => rw [execLinkbyte_next hx]; exact h.rxArrive b
  | reset => rw [execReset_next hx]; exact h.resetBlock

/-- Settles O30: the environment's choice is no part of the invariant, a hold changes nothing else, and
every operation keeps it. -/
theorem everyStepKeepsTheInvariant : Obligations.EveryStepKeepsTheInvariant := by
  intro s t h hstep
  obtain ⟨i, -, hx⟩ | ⟨e, -, rfl⟩ := step_next hstep
  · exact h.takeChoice.exec hx
  · exact h.takeChoice

end Sys2Proof.Machine
end

section
/-! PROOF. The spaces (20_memory.md sections 1 to 3): their canonical form, the place of a pixel in the
frame buffer, and the stop of `RXBYTE` on a complete count. -/

namespace Sys2Proof.Machine

open Sys2Proof

variable {s t : State}

/-! ### The canonical form (R24, log 6) -/

/-- `RXBYTE`, `DECODE` and `WRROW` write one space each, by a write that keeps the form; `RESET` empties
the three; no other operation touches one. -/
theorem State.MemoryCanonical.exec (h : s.MemoryCanonical) {i : Instr} (hx : exec i s = .next t) :
    t.MemoryCanonical := by
  cases i with
  | boot => obtain ⟨-, rfl⟩ := execBoot_next hx; exact { h with }
  | flush => obtain ⟨-, rfl⟩ := execFlush_next hx; exact { h with }
  | rxbyte =>
    obtain ⟨-, b, q, -, -, rfl⟩ := execRxbyte_next hx
    exact ⟨by simpa using Memory.write_wf h.fb _ _, by simpa using h.sl, by simpa using h.surf⟩
  | rxabandon => obtain ⟨-, -, rfl⟩ := execRxabandon_next hx; exact { h with }
  | check => obtain ⟨-, rfl⟩ := execCheck_next hx; split <;> exact { h with }
  | decode =>
    obtain ⟨-, row, -, -, -, rfl⟩ := execDecode_next hx
    exact { h with sl := Memory.writeRun_wf h.sl _ _ }
  | wrrow =>
    obtain ⟨-, -, row, -, -, rfl⟩ := execWrrow_next hx
    exact ⟨by simpa using h.fb, by simpa using h.sl, by simpa using Memory.writeRun_wf h.surf _ _⟩
  | ack => obtain ⟨-, rfl⟩ := execAck_next hx; exact { h with }
  | linkbyte b => rw [execLinkbyte_next hx]; exact { h with }
  | reset => rw [execReset_next hx]; exact ⟨.nil, .nil, .nil⟩

theorem State.MemoryCanonical.takeChoice (h : s.MemoryCanonical) : (takeChoice s).MemoryCanonical :=
  ⟨by simpa using h.fb, by simpa using h.sl, by simpa using h.surf⟩

/-- Settles O32: the spaces are empty after reset, and every operation keeps their form. -/
theorem everyStepKeepsMemoryCanonical : Obligations.EveryStepKeepsMemoryCanonical := by
  refine ⟨⟨.nil, .nil, .nil⟩, fun s t h hstep => ?_⟩
  obtain ⟨i, -, hx⟩ | ⟨e, -, rfl⟩ := step_next hstep
  · exact h.takeChoice.exec hx
  · exact h.takeChoice

/-! ### The place of a pixel (R25) -/

/-- Two columns with the same byte of their row and the same bit of it are one column. -/
theorem column_ext {x x' : Nat} (hbyte : x' / 8 = x / 8) (hbit : bitIndex x' = bitIndex x) : x' = x := by
  unfold bitIndex at hbit; omega

/-- The byte of a pixel names its row, since a row is `ROW_BYTES` bytes, and its place in the row. -/
theorem byteIndex_inj {c : Config} (hl : c.legal = true) {x y x' y' : Nat} (hx : x < c.width)
    (hx' : x' < c.width) (h : byteIndex c x' y' = byteIndex c x y) : x' / 8 = x / 8 ∧ y' = y := by
  have hpos : 0 < c.rowBytes := rowBytes_pos hl
  have row {x y : Nat} (hx : x < c.width) : byteIndex c x y / c.rowBytes = y := by
    rw [byteIndex, rowBase, Nat.add_comm, Nat.add_mul_div_right _ _ hpos,
      Nat.div_eq_of_lt (column_inside hl hx), Nat.zero_add]
  have hy : y' = y := by rw [← row (y := y') hx', h, row hx]
  subst hy
  exact ⟨Nat.add_left_cancel h, rfl⟩

/-- Settles O27: the rule of R25 is the definition of `framePixel`; a pixel's byte gives its row and the
eight columns it may stand in, and its bit gives the column. -/
theorem pixelsHaveTheirOwnBits : Obligations.PixelsHaveTheirOwnBits := by
  refine ⟨fun c m x y hl hx hy => ⟨rfl, ?_, Nat.sub_le .., fun x' y' hx' _ hbyte hbit => ?_⟩, by decide⟩
  · exact Nat.le_sub_one_of_lt (byteIndex_lt hl hx hy)
  · obtain ⟨hcol, hrow⟩ := byteIndex_inj hl hx hx' hbyte
    exact ⟨column_ext hcol hbit, hrow⟩

/-! ### `RXBYTE` with a byte in the queue (R30, R56) -/

theorem rxPop_cons {b : Byte} {q : List Byte} (hq : s.rxq = b :: q) :
    rxPop s = some (b, s.setRxq q) :=
  rxPop_eq_some.mpr ⟨q, hq, rfl⟩

theorem fbWrite_outOfRange {a : Nat} (h : s.cfg.frameBytes ≤ a) (b : Byte) :
    fbWrite s a b = .error .fbOutOfRange := by
  simp [fbWrite, Nat.not_lt.mpr h]

theorem enabled_rxbyte (hp : s.phase = .read) (hq : s.rxq ≠ []) : enabled .rxbyte s = true := by
  simp [enabled, hp, queueHasByte_iff.mpr hq]

/-- R56: with room in the frame, the oldest byte is stored at index `rx_count` and counted. -/
theorem execRxbyte_of_room {b : Byte} {q : List Byte} (hl : s.cfg.legal = true) (hp : s.phase = .read)
    (hq : s.rxq = b :: q) (hlt : s.rxCount < s.cfg.frameBytes) :
    execRxbyte s = .next (countByte ((s.setRxq q).setFb (Memory.write s.fb s.rxCount b))) := by
  have hw : fbWrite (s.setRxq q) s.rxCount b =
      .ok ((s.setRxq q).setFb (Memory.write s.fb s.rxCount b)) := fbWrite_eq_ok.mpr ⟨hlt, rfl⟩
  simp [execRxbyte, whenEnabled_of_enabled hl (enabled_rxbyte hp (by simp [hq])), rxPop_cons hq, hw]

/-- Settles O24: the queue gives its oldest byte, and the count is no index of the frame buffer. -/
theorem rxbyteFaultsPastTheFrame : Obligations.RxbyteFaultsPastTheFrame := by
  intro s hl hp hq hfull
  obtain ⟨b, q, hbq⟩ := List.exists_cons_of_ne_nil hq
  have hw : fbWrite (s.setRxq q) s.rxCount b = .error .fbOutOfRange :=
    fbWrite_outOfRange (s := s.setRxq q) hfull b
  simp [exec, execRxbyte, whenEnabled_of_enabled hl (enabled_rxbyte hp hq), rxPop_cons hbq, hw]

end Sys2Proof.Machine
end

section
/-! PROOF. What a step does to the receive queue, the frame buffer and the log of acknowledgements, by
the environment's choice (20_memory.md R35 to R37). -/

namespace Sys2Proof.Machine

open Sys2Proof

variable {s t : State}

/-! ### Arrivals, resets and turns of `SEQ` -/

/-- The eight operations of `SEQ` (30_encoding.md R49). -/
def ofSequencer : Instr → Bool
  | .linkbyte _ | .reset => false
  | _ => true

theorem step_of_fetch {i : Instr} (h : fetch s = .ok i) : step s = exec i (takeChoice s) := by
  simp [step, h]

theorem step_arrival {b : Byte} (hc : nextChoice s = .linkByte b) (h : step s = .next t) :
    t = rxArrive (takeChoice s) b :=
  execLinkbyte_next ((step_of_fetch (fetch_linkByte hc)).symm.trans h)

theorem step_reset (hc : nextChoice s = .reset) (h : step s = .next t) :
    t = resetBlock (takeChoice s) :=
  execReset_next ((step_of_fetch (fetch_reset hc)).symm.trans h)

/-- A turn of `SEQ` is an operation of `SEQ`, or a hold in one of the phases that can have none (R72). -/
theorem step_turn {e : Bool} (hc : nextChoice s = .sequencer e) (h : step s = .next t) :
    (∃ i, ofSequencer i = true ∧ exec i (takeChoice s) = .next t) ∨
      (s.phase = .wait ∨ s.phase = .read ∧ s.rxq = [] ∨ s.phase = .reserved) ∧ t = takeChoice s := by
  obtain ⟨b, hb, -⟩ | ⟨hr, -⟩ | ⟨e', -, hop⟩ := step_cases h
  · simp [hc] at hb
  · simp [hc] at hr
  · obtain ⟨-, -, hx⟩ | ⟨-, hx⟩ | ⟨-, -, hx⟩ | ⟨-, -, -, hx⟩ | ⟨-, hx⟩ | ⟨-, hx⟩ | ⟨-, hx⟩ | ⟨-, hx⟩ |
      ⟨hidle, ht⟩ := hop
    · exact .inl ⟨.boot, rfl, hx⟩
    · exact .inl ⟨.flush, rfl, hx⟩
    · exact .inl ⟨.rxbyte, rfl, hx⟩
    · exact .inl ⟨.rxabandon, rfl, hx⟩
    · exact .inl ⟨.check, rfl, hx⟩
    · exact .inl ⟨.decode, rfl, hx⟩
    · exact .inl ⟨.wrrow, rfl, hx⟩
    · exact .inl ⟨.ack, rfl, hx⟩
    · obtain ⟨hp, -⟩ | ⟨hp, hq, -⟩ | hp := hidle
      · exact .inr ⟨.inl hp, ht⟩
      · exact .inr ⟨.inr (.inl ⟨hp, hq⟩), ht⟩
      · exact .inr ⟨.inr (.inr hp), ht⟩

/-- R59: a turn of `SEQ` in `phase = ACK` is the acknowledgement. -/
theorem step_turn_ack {e : Bool} (hc : nextChoice s = .sequencer e) (hp : s.phase = .ack)
    (h : step s = .next t) : t = (txEmit (takeChoice s) s.cfg.ackByte).setPhase .flush := by
  have hf : fetch s = .ok .ack := by
    rw [fetch_sequencer hc, hp]
    cases queueHasByte s <;> cases e <;> rfl
  have hx : execAck (takeChoice s) = .next t := (step_of_fetch hf).symm.trans h
  rw [(execAck_next hx).2, takeChoice_cfg]

/-! ### A turn of `SEQ` -/

/-- What a turn of `SEQ` leaves in the queue (R35): `FLUSH` empties it, a read takes its head. -/
def queueAfterTurn (s : State) : List Byte :=
  if s.phase = .flush then [] else if s.phase = .read then s.rxq.tail else s.rxq

/-- What a turn of `SEQ` from `s` to `t` does to the queue, and the phases in which it may write the
frame buffer and the log of acknowledgements. -/
structure TurnEffect (s t : State) : Prop where
  queue : t.rxq = queueAfterTurn s
  fb : s.phase ≠ .read → t.fb = s.fb
  txlog : s.phase ≠ .ack → t.txlog = s.txlog

/-- `FLUSH` and `RXBYTE` alone touch the queue, `RXBYTE` alone the frame buffer, `ACK` alone `TXLOG`. -/
theorem exec_turnEffect {i : Instr} (hi : ofSequencer i = true) (h : exec i s = .next t) :
    TurnEffect s t := by
  cases i with
  | boot => obtain ⟨hp, rfl⟩ := execBoot_next h; exact ⟨by simp [queueAfterTurn, hp], by simp, by simp⟩
  | flush => obtain ⟨hp, rfl⟩ := execFlush_next h; exact ⟨by simp [queueAfterTurn, hp], by simp, by simp⟩
  | rxbyte =>
    obtain ⟨hp, b, q, hq, -, rfl⟩ := execRxbyte_next h
    exact ⟨by simp [queueAfterTurn, hp, hq], by simp [hp], by simp⟩
  | rxabandon =>
    obtain ⟨hp, hq, rfl⟩ := execRxabandon_next h
    exact ⟨by simp [queueAfterTurn, hp, hq], by simp, by simp⟩
  | check =>
    obtain ⟨hp, rfl⟩ := execCheck_next h
    split <;> exact ⟨by simp [queueAfterTurn, hp], by simp, by simp⟩
  | decode =>
    obtain ⟨hp, row, -, -, -, rfl⟩ := execDecode_next h
    exact ⟨by simp [queueAfterTurn, hp], by simp, by simp⟩
  | wrrow =>
    obtain ⟨hp, -, row, -, -, rfl⟩ := execWrrow_next h
    exact ⟨by simp [queueAfterTurn, hp], by simp, by simp⟩
  | ack => obtain ⟨hp, rfl⟩ := execAck_next h; exact ⟨by simp [queueAfterTurn, hp], by simp, by simp [hp]⟩
  | linkbyte b => simp [ofSequencer] at hi
  | reset => simp [ofSequencer] at hi

/-- A hold changes nothing, and no phase in which it happens asks for a change of the queue: in a read it
happens with the queue empty. -/
theorem step_turnEffect {e : Bool} (hc : nextChoice s = .sequencer e) (h : step s = .next t) :
    TurnEffect s t := by
  obtain ⟨i, hi, hx⟩ | ⟨hp, rfl⟩ := step_turn hc h
  · have heff := exec_turnEffect hi hx
    exact ⟨by simpa [queueAfterTurn] using heff.queue, by simpa using heff.fb, by simpa using heff.txlog⟩
  · refine ⟨?_, fun _ => takeChoice_fb s, fun _ => takeChoice_txlog s⟩
    obtain hp | ⟨hp, hq⟩ | hp := hp
    · simp [queueAfterTurn, hp]
    · simp [queueAfterTurn, hp, hq]
    · simp [queueAfterTurn, hp]

/-! ### An arrival -/

theorem rxArrive_rxq (s : State) (b : Byte) :
    (rxArrive s b).rxq = if s.rxq.length < s.cfg.rxFifoDepth then s.rxq ++ [b] else s.rxq := rfl

@[simp] theorem rxArrive_fb (s : State) (b : Byte) : (rxArrive s b).fb = s.fb := rfl
@[simp] theorem rxArrive_txlog (s : State) (b : Byte) : (rxArrive s b).txlog = s.txlog := rfl

/-- Settles O39: a turn of `SEQ` by its effect on the queue, an arrival and a reset by what they are. -/
theorem queueKeepsArrivalOrder : Obligations.QueueKeepsArrivalOrder := by
  intro s t h
  cases hc : nextChoice s with
  | sequencer e => exact (step_turnEffect hc h).queue
  | linkByte b => simp [step_arrival hc h, rxArrive_rxq]
  | reset => simp [step_reset hc h]

/-- Settles O38: `RXBYTE` happens in a read only, and an arrival and a turn of `SEQ` outside a read leave
the frame buffer as it is; the queue is that of `queueKeepsArrivalOrder`. -/
theorem frameBufferIsFixedOutsideARead : Obligations.FrameBufferIsFixedOutsideARead := by
  intro s hp
  refine ⟨fun ⟨u, hu⟩ => hp (execRxbyte_next hu).1, fun t h hreset => ?_⟩
  have hqueue := queueKeepsArrivalOrder s t h
  cases hc : nextChoice s with
  | sequencer e =>
    refine ⟨(step_turnEffect hc h).fb hp, by simp, fun _ _ hflush => ?_⟩
    rw [hqueue, hc]
    exact if_pos hflush
  | linkByte b =>
    refine ⟨by simp [step_arrival hc h], fun b' hb hroom => ?_, by simp⟩
    rw [hqueue, hc, ← Choice.linkByte.inj hb]
    exact if_pos hroom
  | reset => exact absurd hc hreset

/-! ### The acknowledgement (R36) -/

/-- Of the steps that are no reset, a turn of `SEQ` in `phase = ACK` is the only one that sends. -/
theorem step_txlog_of_not_ack (hreset : nextChoice s ≠ .reset)
    (hack : ¬(s.phase = .ack ∧ ∃ e, nextChoice s = .sequencer e)) (h : step s = .next t) :
    t.txlog = s.txlog := by
  cases hc : nextChoice s with
  | sequencer e => exact (step_turnEffect hc h).txlog fun hp => hack ⟨hp, e, hc⟩
  | linkByte b => simp [step_arrival hc h]
  | reset => exact absurd hc hreset

/-- In `phase = ACK` the last `H` row writes are those of the rows `0` to `H - 1`, in order. -/
theorem State.Inv.last_rows_in_order (h : s.Inv) (hp : s.phase = .ack) {r : Nat} (hr : r < s.cfg.height) :
    (s.displog[s.cfg.height * s.txlog.length + r]?).map (·.y0) = some r := by
  have hcount : s.displog.length = s.cfg.height * s.txlog.length + s.cfg.height := by
    simpa [State.rowsDrawn, hp] using h.dispCount
  rw [h.dispOrder _ (by omega), Nat.mul_add_mod, Nat.mod_eq_of_lt hr]

/-- Settles O45: in `phase = ACK` the invariant has all `H` rows of the frame drawn and logged, and the
acknowledgement changes `TXLOG` and the phase only. -/
theorem ackComesAfterAllRows : Obligations.AckComesAfterAllRows := by
  intro s t hinv h hreset
  by_cases hack : s.phase = .ack ∧ ∃ e, nextChoice s = .sequencer e
  · obtain ⟨hp, e, hc⟩ := hack
    have hcount := hinv.dispCount
    have hdrawn := hinv.surfDrawn
    simp only [State.rowsDrawn, hp] at hcount hdrawn
    obtain rfl := step_turn_ack hc hp h
    refine ⟨by simp [hp, hc], fun _ => ⟨by simp, by simp, ?_, fun r hr => ?_, ?_⟩⟩
    · simp [hcount, Nat.mul_succ]
    · simpa using hinv.last_rows_in_order hp hr
    · simpa using hdrawn
  · have hsame : t.txlog = s.txlog := step_txlog_of_not_ack hreset hack h
    exact ⟨iff_of_false (absurd hsame) hack, fun hne => absurd hsame hne⟩

end Sys2Proof.Machine
end

section
/-! PROOF. A read (20_memory.md R27, 40_receiver.md R56): the bytes taken by turns of `SEQ` stand in the
frame buffer in the order they arrived. -/

namespace Sys2Proof.Machine

open Sys2Proof

variable {s : State}

/-- Where a read stands with the count `n`: complete, or still going on (R56). -/
def readPhase (c : Config) (n : Nat) : Phase := if n = c.frameBytes then .check else .read

/-- The state of a read once bytes are taken: the space `m`, the count `n`, the queue `q` and the choices
`cs` that are left. -/
def State.readTo (s : State) (m : List Host.Cell) (n : Nat) (q : List Byte) (cs : List Choice) : State :=
  { s with rxq := q, fb := m, rxCount := n, phase := readPhase s.cfg n, env := cs }

/-- R49, R72: in a read with a byte in the queue `SEQ` has `RXBYTE`, whatever is offered. -/
theorem fetch_rxbyte {e : Bool} (hc : nextChoice s = .sequencer e) (hp : s.phase = .read)
    (hq : s.rxq ≠ []) : fetch s = .ok .rxbyte := by
  rw [fetch_sequencer hc, hp, queueHasByte_iff.mpr hq]
  cases e <;> rfl

/-- A turn of `SEQ` in a read that is not complete takes the next byte to index `rx_count`. -/
theorem step_readTo {m : List Host.Cell} {n : Nat} {b : Byte} {q : List Byte} {e : Bool} {cs : List Choice}
    (hl : s.cfg.legal = true) (hn : n < s.cfg.frameBytes) :
    step (s.readTo m n (b :: q) (.sequencer e :: cs)) =
      .next (s.readTo (Memory.write m n b) (n + 1) q cs) := by
  have hne : n ≠ s.cfg.frameBytes := Nat.ne_of_lt hn
  have hp : readPhase s.cfg n = .read := if_neg hne
  have hf : fetch (s.readTo m n (b :: q) (.sequencer e :: cs)) = .ok .rxbyte :=
    fetch_rxbyte (nextChoice_cons _ _ cs rfl) hp (List.cons_ne_nil b q)
  have hx : execRxbyte (s.readTo m n (b :: q) cs) =
      .next (countByte (((s.readTo m n (b :: q) cs).setRxq q).setFb (Memory.write m n b))) :=
    execRxbyte_of_room hl hp rfl hn
  rw [step_of_fetch hf, takeChoice_cons _ _ cs rfl]
  refine hx.trans (congrArg _ ?_)
  rw [countByte_eq]
  by_cases hlast : n + 1 = s.cfg.frameBytes
  · simp [hlast, readPhase, State.readTo, State.setRxq, State.setFb, State.setRxCount, State.setPhase]
  · simp [hlast, hne, readPhase, State.readTo, State.setRxq, State.setFb, State.setRxCount]

/-- R27, from any count: as many turns of `SEQ` as there are bytes put them at the next indices. -/
theorem runSteps_readTo (hl : s.cfg.legal = true) (more : List Byte) (rest : List Choice) :
    ∀ (bs : List Byte) (offers : List Bool) (m : List Host.Cell) (n : Nat),
      offers.length = bs.length → n + bs.length ≤ s.cfg.frameBytes →
      ∃ m', runSteps bs.length (s.readTo m n (bs ++ more) (offers.map .sequencer ++ rest)) =
          .next (s.readTo m' (n + bs.length) more rest) ∧
        ∀ k, Memory.read m' k = if n ≤ k ∧ k < n + bs.length then bs[k - n]? else Memory.read m k
  | [], offers, m, n, hlen, _ => by
    obtain rfl := List.length_eq_zero_iff.mp hlen
    exact ⟨m, rfl, fun k => (if_neg (by simp)).symm⟩
  | b :: bs, [], m, n, hlen, _ => by simp at hlen
  | b :: bs, e :: offers, m, n, hlen, hroom => by
    rw [List.length_cons] at hroom
    obtain ⟨m', hrun, hread⟩ := runSteps_readTo hl more rest bs offers (Memory.write m n b) (n + 1)
      (Nat.succ.inj hlen) (by omega)
    have hstep : step (s.readTo m n (b :: bs ++ more) ((e :: offers).map .sequencer ++ rest)) = .next _ :=
      step_readTo hl (by omega)
    refine ⟨m', ?_, fun k => ?_⟩
    · rw [List.length_cons, runSteps_succ hstep, show n + (bs.length + 1) = n + 1 + bs.length by omega]
      exact hrun
    · rw [hread, Memory.read_write]
      obtain hlt | rfl | hgt := Nat.lt_trichotomy k n
      · simp [Nat.not_le.mpr hlt, Nat.ne_of_lt hlt, show ¬n + 1 ≤ k by omega]
      · simp
      · rw [if_neg (Nat.ne_of_gt hgt), show k - n = k - (n + 1) + 1 by omega, List.getElem?_cons_succ,
          List.length_cons]
        exact if_congr (by omega) rfl rfl

/-- Settles O46: a read at count 0 is not complete, since a frame has bytes, and its turns store from
index 0. -/
theorem readStoresBytesInOrder : Obligations.ReadStoresBytesInOrder := by
  intro s bs more offers rest hl hp hcount hroom hq hlen henv
  have hstart : s = s.readTo s.fb 0 (bs ++ more) (offers.map .sequencer ++ rest) := by
    have hread : readPhase s.cfg 0 = .read := if_neg (Nat.ne_of_lt (frameBytes_pos hl))
    rw [State.readTo, hread, ← hp, ← hcount, ← hq, ← henv]
  obtain ⟨m, hrun, hread⟩ := runSteps_readTo hl more rest bs offers s.fb 0 hlen
    (by rwa [Nat.zero_add])
  rw [← hstart, Nat.zero_add] at hrun
  exact ⟨m, hrun, by simpa using hread⟩

end Sys2Proof.Machine
end

section
/-! PROOF. The values of the received bytes never affect control (20_memory.md R38, 30_encoding.md R42):
two states with the same control go through every operation side by side. -/

namespace Sys2Proof.Machine

open Sys2Proof

variable {a b : State}

/-! ### Two spaces that hold values at the same indices -/

/-- Runs of one length over the same indices leave values at the same indices. -/
theorem Memory.sameHeld.writeRun {α : Type} {m n : Memory α} (h : Memory.sameHeld m n) (k : Nat)
    {vs ws : List α} (hl : vs.length = ws.length) :
    Memory.sameHeld (Memory.writeRun m k vs) (Memory.writeRun n k ws) := by
  intro i
  rw [Memory.read_writeRun, Memory.read_writeRun, hl]
  by_cases hi : k ≤ i ∧ i < k + ws.length
  · have hsub : i - k < ws.length := by omega
    simp [hi, hsub, hl]
  · simpa [hi] using h i

theorem Memory.readRun_isSome_iff {α : Type} (m : Memory α) (k len : Nat) :
    (Memory.readRun m k len).isSome = true ↔ ∀ i < len, (Memory.read m (k + i)).isSome = true := by
  constructor
  · intro h i hi
    obtain ⟨vs, hvs⟩ := Option.isSome_iff_exists.mp h
    obtain ⟨hl, hr⟩ := (Memory.readRun_eq_some m k len vs).mp hvs
    simp [hr i hi, hl, hi]
  · intro h
    obtain ⟨vs, hvs⟩ := Memory.readRun_isSome m k len h
    simp [hvs]

/-- A run can be read from both spaces or from neither. -/
theorem Memory.sameHeld.readRun {α : Type} {m n : Memory α} (h : Memory.sameHeld m n) (k len : Nat) :
    (∃ vs ws, Memory.readRun m k len = some vs ∧ Memory.readRun n k len = some ws) ∨
      Memory.readRun m k len = none ∧ Memory.readRun n k len = none := by
  have hiff : (Memory.readRun m k len).isSome = (Memory.readRun n k len).isSome := by
    rw [Bool.eq_iff_iff, Memory.readRun_isSome_iff, Memory.readRun_isSome_iff]
    exact forall₂_congr fun i _ => by rw [h]
  cases hm : Memory.readRun m k len with
  | none => exact .inr ⟨rfl, Option.not_isSome_iff_eq_none.mp (by simp [← hiff, hm])⟩
  | some vs =>
    obtain ⟨ws, hn⟩ := Option.isSome_iff_exists.mp (hiff.symm.trans (by simp [hm]))
    exact .inl ⟨vs, ws, rfl, hn⟩

/-! ### The updates keep the same control -/

theorem State.SameControl.setPhase (h : a.SameControl b) (p : Phase) :
    (a.setPhase p).SameControl (b.setPhase p) := { h with phase := rfl }

theorem State.SameControl.setRxCount (h : a.SameControl b) (n : Nat) :
    (a.setRxCount n).SameControl (b.setRxCount n) := { h with rxCount := rfl }

theorem State.SameControl.setY (h : a.SameControl b) (n : Nat) :
    (a.setY n).SameControl (b.setY n) := { h with y := rfl }

theorem State.SameControl.setRxq (h : a.SameControl b) {q q' : List Byte} (hq : q.length = q'.length) :
    (a.setRxq q).SameControl (b.setRxq q') := { h with rxq := hq }

theorem State.SameControl.setFb (h : a.SameControl b) {m n : List Host.Cell} (hm : Memory.sameHeld m n) :
    (a.setFb m).SameControl (b.setFb n) := { h with fb := hm }

theorem State.SameControl.setSl (h : a.SameControl b) {m n : Memory Color} (hm : Memory.sameHeld m n) :
    (a.setSl m).SameControl (b.setSl n) := { h with sl := hm }

theorem State.SameControl.txEmit (h : a.SameControl b) (v : Byte) :
    (txEmit a v).SameControl (txEmit b v) := { h with txlog := by simp [h.txlog] }

/-- The surface is no part of control, and of the transactions only their number is. -/
theorem State.SameControl.withRow (h : a.SameControl b) (row row' : List Color) :
    (a.withRow row).SameControl (b.withRow row') := { h with displog := by simp [h.displog] }

theorem State.SameControl.rxArrive (h : a.SameControl b) (v w : Byte) :
    (rxArrive a v).SameControl (rxArrive b w) := by
  refine h.setRxq ?_
  rw [rxAvail, rxAvail, h.rxq, h.cfg]
  split
  · simp [h.rxq]
  · exact h.rxq

theorem State.SameControl.resetBlock (h : a.SameControl b) : (resetBlock a).SameControl (resetBlock b) where
  cfg := h.cfg
  phase := rfl
  rxCount := rfl
  y := rfl
  fb _ := rfl
  sl _ := rfl
  rxq := rfl
  txlog := rfl
  displog := rfl
  env := h.env
  clock := h.clock

theorem State.SameControl.countByte (h : a.SameControl b) : (countByte a).SameControl (countByte b) := by
  rw [countByte_eq, countByte_eq, h.rxCount, h.cfg]
  split
  · exact (h.setRxCount _).setPhase _
  · exact h.setRxCount _

theorem State.SameControl.nextRow (h : a.SameControl b) : (nextRow a).SameControl (nextRow b) := by
  rw [nextRow_eq, nextRow_eq, h.y, h.cfg]
  split
  · exact (h.setY _).setPhase _
  · exact (h.setY _).setPhase _

/-! ### The environment's choice -/

/-- The choices have the same shape: fixed ones by the two lists, free ones by the one counter. -/
theorem State.SameControl.nextChoice (h : a.SameControl b) :
    choiceShape (nextChoice a) = choiceShape (nextChoice b) := by
  have henv := h.env
  cases ha : a.env <;> cases hb : b.env <;> simp_all [Machine.nextChoice, h.clock]

theorem State.SameControl.takeChoice (h : a.SameControl b) : (takeChoice a).SameControl (takeChoice b) := by
  have henv := h.env
  cases ha : a.env with
  | nil =>
    have hb : b.env = [] := by simpa [ha, eq_comm] using henv
    rw [takeChoice_nil a ha, takeChoice_nil b hb]
    exact { h with clock := by simp [h.clock] }
  | cons c cs =>
    cases hb : b.env with
    | nil => simp [ha, hb] at henv
    | cons d ds =>
      rw [takeChoice_cons a c cs ha, takeChoice_cons b d ds hb]
      exact { h with env := by simp_all }

theorem State.SameControl.queueHasByte (h : a.SameControl b) : queueHasByte a = queueHasByte b := by
  rw [Bool.eq_iff_iff, queueHasByte_iff, queueHasByte_iff, ← List.length_pos_iff,
    ← List.length_pos_iff, h.rxq]

/-- The enabling condition of an operation does not look at a payload, its own included. -/
theorem State.SameControl.enabled (h : a.SameControl b) (i : Instr) : enabled i a = enabled i b := by
  cases i <;> simp [Machine.enabled, h.phase, h.queueHasByte]

/-! ### Outcomes side by side -/

/-- Both outcomes are next states with the same control, or neither is a next state. -/
def SameOutcome (r r' : Result) : Prop :=
  ((∃ t, r = .next t) ↔ ∃ u, r' = .next u) ∧ ∀ t u, r = .next t → r' = .next u → t.SameControl u

theorem SameOutcome.next {t u : State} (h : t.SameControl u) : SameOutcome (.next t) (.next u) :=
  ⟨by simp, by rintro _ _ ⟨⟩ ⟨⟩; exact h⟩

theorem SameOutcome.fault (f g : Fault) : SameOutcome (.fault f) (.fault g) := ⟨by simp, by simp⟩

theorem SameOutcome.refused (r r' : Refusal) : SameOutcome (.refused r) (.refused r') :=
  ⟨by simp, by simp⟩

theorem SameOutcome.whenEnabled {i j : Instr} {r r' : Result} (h : a.SameControl b)
    (he : enabled i a = enabled j b) (hr : SameOutcome r r') :
    SameOutcome (whenEnabled i a r) (whenEnabled j b r') := by
  simp only [Machine.whenEnabled, h.cfg, he]
  split
  · split
    · exact hr
    · exact .refused _ _
  · exact .refused _ _

theorem SameOutcome.hold (h : a.SameControl b) : SameOutcome (hold a) (hold b) := by
  simp only [Machine.hold, h.cfg]
  split
  · exact .next h
  · exact .refused _ _

/-- The frame buffer takes a byte in both states or, past its end, in neither. -/
theorem State.SameControl.fbWrite (h : a.SameControl b) (k : Nat) (v w : Byte) :
    (∃ t u, fbWrite a k v = .ok t ∧ fbWrite b k w = .ok u ∧ t.SameControl u) ∨
      ∃ f g, fbWrite a k v = .error f ∧ fbWrite b k w = .error g := by
  simp only [Machine.fbWrite, h.cfg]
  by_cases hk : k < b.cfg.frameBytes
  · exact .inl ⟨_, _, if_pos hk, if_pos hk, h.setFb (h.fb.writeRun k rfl)⟩
  · exact .inr ⟨_, _, if_neg hk, if_neg hk⟩

/-- The frame buffer gives a run of bytes in both states or in neither. -/
theorem State.SameControl.fbReadRun (h : a.SameControl b) (k n : Nat) :
    (∃ bs cs, fbReadRun a k n = .ok bs ∧ fbReadRun b k n = .ok cs) ∨
      ∃ f g, fbReadRun a k n = .error f ∧ fbReadRun b k n = .error g := by
  simp only [Machine.fbReadRun, h.cfg]
  split
  · obtain ⟨vs, ws, ha, hb⟩ | ⟨ha, hb⟩ := h.fb.readRun k n <;> simp [ha, hb]
  · simp

/-- The scanline buffer gives its row in both states or in neither. -/
theorem State.SameControl.slReadRow (h : a.SameControl b) :
    (∃ row row', slReadRow a = .ok row ∧ slReadRow b = .ok row') ∨
      ∃ f g, slReadRow a = .error f ∧ slReadRow b = .error g := by
  simp only [Machine.slReadRow, h.cfg]
  obtain ⟨vs, ws, ha, hb⟩ | ⟨ha, hb⟩ := h.sl.readRun 0 b.cfg.width <;> simp [ha, hb]

/-! ### The operations side by side -/

/-- The queue has a head in both states or in neither, and the index is the same. -/
theorem SameOutcome.execRxbyte (h : a.SameControl b) : SameOutcome (execRxbyte a) (execRxbyte b) := by
  refine .whenEnabled h (h.enabled _) ?_
  have hlen := h.rxq
  cases ha : a.rxq with
  | nil =>
    have hb : b.rxq = [] := List.length_eq_zero_iff.mp (by rw [← hlen, ha, List.length_nil])
    simp only [rxPop, ha, hb]
    exact .refused _ _
  | cons v q =>
    cases hb : b.rxq with
    | nil => simp [ha, hb] at hlen
    | cons w q' =>
      have hq : q.length = q'.length := by simpa [ha, hb] using hlen
      simp only [rxPop_cons ha, rxPop_cons hb, State.setRxq_rxCount, h.rxCount]
      obtain ⟨t, u, ht, hu, htu⟩ | ⟨f, g, hf, hg⟩ := (h.setRxq hq).fbWrite b.rxCount v w
      · simpa only [ht, hu] using .next htu.countByte
      · simpa only [hf, hg] using .fault f g

theorem SameOutcome.execDecode (h : a.SameControl b) : SameOutcome (execDecode a) (execDecode b) := by
  refine .whenEnabled h (h.enabled _) ?_
  rw [h.cfg, h.y]
  obtain ⟨bs, cs, ha, hb⟩ | ⟨f, g, ha, hb⟩ := h.fbReadRun (rowBase b.cfg b.y) b.cfg.rowBytes
  · simp only [ha, hb]
    exact .next ((h.setSl (h.sl.writeRun 0 (by simp))).setPhase .write)
  · simp only [ha, hb]
    exact .fault f g

/-- R65: the display takes a whole row of a row number that exists. -/
theorem dispWriteRow_whole {row : List Color} (hy : a.y < a.cfg.height) (hl : row.length = a.cfg.width) :
    dispWriteRow a 0 a.y a.cfg.width row = .ok (a.withRow row) :=
  dispWriteRow_eq_ok.mpr ⟨⟨hy, by simp, hl.ge⟩, by simp [State.withRow, ← hl]⟩

/-- Both rows are `W` pixels, so the display takes both or, of a row that does not exist, neither. -/
theorem SameOutcome.execWrrow (h : a.SameControl b) : SameOutcome (execWrrow a) (execWrrow b) := by
  refine .whenEnabled h (h.enabled _) ?_
  obtain ⟨row, row', ha, hb⟩ | ⟨f, g, ha, hb⟩ := h.slReadRow
  · simp only [ha, hb]
    by_cases hy : b.y < b.cfg.height
    · rw [dispWriteRow_whole (by rwa [h.y, h.cfg]) (slReadRow_eq_ok.mp ha).1,
        dispWriteRow_whole hy (slReadRow_eq_ok.mp hb).1]
      exact .next (h.withRow row row').nextRow
    · rw [dispWriteRow_outOfRange (Nat.le_of_not_lt hy),
        dispWriteRow_outOfRange (by rw [h.y, h.cfg]; exact Nat.le_of_not_lt hy)]
      exact .fault _ _
  · simp only [ha, hb]
    exact .fault f g

theorem SameOutcome.execLinkbyte (h : a.SameControl b) (v w : Byte) :
    SameOutcome (execLinkbyte v a) (execLinkbyte w b) :=
  .whenEnabled h rfl (.next (h.rxArrive v w))

theorem SameOutcome.execCheck (h : a.SameControl b) : SameOutcome (execCheck a) (execCheck b) := by
  refine .whenEnabled h (h.enabled _) (.next ?_)
  have hcount : countComplete a = countComplete b := by simp [countComplete, h.rxCount, h.cfg]
  rw [hcount]
  by_cases hfull : countComplete b
  · simpa only [if_pos hfull] using (h.setY 0).setPhase .decode
  · simpa only [if_neg hfull] using h.setPhase .flush

theorem SameOutcome.exec (h : a.SameControl b) (i : Instr) : SameOutcome (exec i a) (exec i b) := by
  cases i with
  | boot => exact .whenEnabled h (h.enabled _) (.next (h.setPhase .flush))
  | flush => exact .whenEnabled h (h.enabled _) (.next (((h.setRxq rfl).setRxCount 0).setPhase .read))
  | rxbyte => exact .execRxbyte h
  | rxabandon => exact .whenEnabled h (h.enabled _) (.next (h.setPhase .check))
  | check => exact .execCheck h
  | decode => exact .execDecode h
  | wrrow => exact .execWrrow h
  | ack =>
    refine .whenEnabled h (h.enabled _) (.next ?_)
    rw [h.cfg]
    exact (h.txEmit _).setPhase .flush
  | linkbyte v => exact .execLinkbyte h v v
  | reset => exact .whenEnabled h rfl (.next h.resetBlock)

/-- A turn of `SEQ` has one select word in both states, and so one operation or none. -/
theorem State.SameControl.fetch_sequencer (h : a.SameControl b) {e : Bool}
    (ha : Machine.nextChoice a = .sequencer e) (hb : Machine.nextChoice b = .sequencer e) :
    fetch a = fetch b := by
  rw [Machine.fetch_sequencer ha, Machine.fetch_sequencer hb, h.phase, h.queueHasByte]

theorem SameOutcome.step (h : a.SameControl b) : SameOutcome (step a) (step b) := by
  have ht := h.takeChoice
  have hshape := h.nextChoice
  cases ha : nextChoice a <;> cases hb : nextChoice b <;> simp [ha, hb, choiceShape] at hshape
  case sequencer.sequencer e e' =>
    subst hshape
    simp only [Machine.step, h.fetch_sequencer ha hb]
    split
    · exact .exec ht _
    · exact .hold ht
  case linkByte.linkByte v w =>
    rw [step_of_fetch (fetch_linkByte ha), step_of_fetch (fetch_linkByte hb)]
    exact .execLinkbyte ht v w
  case reset.reset =>
    rw [step_of_fetch (fetch_reset ha), step_of_fetch (fetch_reset hb)]
    exact .exec ht .reset

/-- Settles O42: the two steps take the same choice but for its payload, and every operation keeps the
two states side by side. -/
theorem payloadNeverAffectsControl : Obligations.PayloadNeverAffectsControl :=
  fun _ _ => SameOutcome.step

end Sys2Proof.Machine
end

section
/-! PROOF. The decoder and the encoder (30_encoding.md R42, R48 to R50): what every select word selects,
the operation that the select word of a state names, and a table word placed in a state. -/

namespace Sys2Proof.Machine

open Sys2Proof

variable {s : State}

/-! ### Signals, phase codes and select words -/

/-- R49: the word of an operation of `SEQ` has the pattern of its row, a byte and the reset are the step
they signal. -/
theorem decode_encode (i : Instr) : decode (encode i) = .ok i := by
  cases i with
  | boot | flush | rxbyte | rxabandon | check | decode | wrrow | ack => rfl
  | linkbyte b => rfl
  | reset => rfl

/-- R42: every byte value is a legal operand, and no other operation has one. -/
theorem wellFormed_eq_true (i : Instr) : i.wellFormed = true := by cases i <;> rfl

/-- Settles O1: every operation is well formed and its signal decodes to it. -/
theorem everyStepDecodesFromItsSignal : Obligations.EveryStepDecodesFromItsSignal :=
  ⟨fun i => ⟨wellFormed_eq_true i, decode_encode i⟩, fun b => decode_encode (.linkbyte b)⟩

/-- R48, R50: with the reserved phase every value of the three bits is the code of its phase. -/
theorem code_ofCode (v : BitVec 3) : (Phase.ofCode v).code = v := by
  revert v; decide

/-- Settles O4: the codes by evaluation, and the two inverse laws of the code. -/
theorem phaseCodesAreOneToOne : Obligations.PhaseCodesAreOneToOne :=
  ⟨⟨rfl, rfl, rfl, rfl, rfl, rfl, rfl, rfl⟩, ofCode_code, code_ofCode⟩

/-- The field `sel[4:2]` of a packed select word is the code of its phase (R49). -/
theorem packSel_extract_phase (p : Phase) (q e : Bool) : (packSel p q e).extractLsb' 2 3 = p.code := by
  rw [← code_ofCode ((packSel p q e).extractLsb' 2 3)]
  exact congrArg Phase.code (selPhase_packSel p q e)

/-- Settles O2: the fields are those that were packed; the row is chosen by the phase alone but in
`WAIT`, where `e` decides, and in `READ`, where `q` decides and then `e`. -/
theorem selectPatternsFollowTheOperationMap : Obligations.SelectPatternsFollowTheOperationMap := by
  intro p q e
  refine ⟨⟨packSel_extract_phase p q e, selQ_packSel p q e, selE_packSel p q e⟩, ?_⟩
  cases p with
  | wait | read => cases q <;> cases e <;> rfl
  | flush | check | decode | write | ack | reserved => cases q <;> cases e <;> rfl

/-- Settles O3: eleven closed words, each read by the decoder. -/
theorem writtenOutWordsDecode : Obligations.WrittenOutWordsDecode :=
  ⟨rfl, rfl, rfl, rfl, rfl, rfl, rfl, rfl, rfl, rfl, rfl⟩

/-! ### The select word of a state (R49, R72) -/

/-- Settles O5: the select word of a state packs its phase and its queue bit, so the operation map of O2
gives the one operation it names, phase by phase. -/
theorem selectWordNamesTheEnabledOperation : Obligations.SelectWordNamesTheEnabledOperation := by
  intro s e i
  rw [selWord, (selectPatternsFollowTheOperationMap s.phase (queueHasByte s) e).2]
  cases hp : s.phase with
  | wait => cases e <;> simp [eq_comm]
  | read => cases hq : s.rxq <;> cases e <;> simp [queueHasByte, hq, eq_comm]
  | flush | check | decode | write | ack => simp [eq_comm]
  | reserved => simp

/-- The operation that the select word of a state names is enabled there (R72). -/
theorem enabled_of_decodeSel {e : Bool} {i : Instr} (h : decodeSel (selWord s e) = .ok i) :
    enabled i s = true := by
  obtain ⟨rfl, hp, -⟩ | ⟨rfl, hp⟩ | ⟨rfl, hp, hq⟩ | ⟨rfl, hp, hq, -⟩ | ⟨rfl, hp⟩ | ⟨rfl, hp⟩ |
    ⟨rfl, hp⟩ | ⟨rfl, hp⟩ := (selectWordNamesTheEnabledOperation s e i).mp h
  · simp [enabled, hp]
  · simp [enabled, hp]
  · exact enabled_rxbyte hp (List.ne_nil_of_length_pos hq)
  · simp [enabled, queueHasByte, hp, hq]
  · simp [enabled, hp]
  · simp [enabled, hp]
  · simp [enabled, hp]
  · simp [enabled, hp]

/-! ### A table word placed in a state (log 23) -/

/-- A word of the table that decodes is one byte whose low five bits are a select word with a row
(log 21). -/
theorem decodeTableWord_eq_some {n w : Nat} {i : Instr} (h : decodeTableWord n w = some i) :
    ∃ v : Byte, tableBytes n w = [v] ∧ v.toNat < 32 ∧ decodeSel (v.setWidth 5) = .ok i := by
  unfold decodeTableWord decodeBytes at h
  split at h
  · rename_i v hv
    split at h
    · rename_i hlt
      cases hd : decodeSel (v.setWidth 5) with
      | error f => simp [hd, Except.toOption] at h
      | ok j =>
        obtain rfl : j = i := by simpa [hd, Except.toOption] using h
        exact ⟨v, hv, hlt, hd⟩
    · simp [Except.toOption] at h
  · simp [Except.toOption] at h

theorem withFetchWord_of_select {n w : Nat} {v : Byte} (hb : tableBytes n w = [v]) (hlt : v.toNat < 32)
    (s : State) : s.withFetchWord n w = placeSelect s (v.setWidth 5) := by
  simp [State.withFetchWord, hb, hlt]

/-- The choice placed with a select word, once used up, leaves the phase and the queue placed. -/
theorem takeChoice_placeSelect (s : State) (w : SelWord) : takeChoice (placeSelect s w) =
    { s with phase := selPhase w, rxq := (placeSelect s w).rxq } :=
  takeChoice_cons _ _ _ (placeSelect_env s w)

/-- The next step of a state with a select word placed decodes that word. -/
theorem fetch_placeSelect (s : State) (w : SelWord) : fetch (placeSelect s w) = decodeSel w := by
  rw [fetch_sequencer (nextChoice_cons _ _ _ (placeSelect_env s w))]
  exact congrArg decodeSel (selWord_placeSelect s w)

theorem enabled_placeSelect {w : SelWord} {i : Instr} (h : decodeSel w = .ok i) (s : State) :
    enabled i (placeSelect s w) = true :=
  enabled_of_decodeSel (e := selE w) (by rw [selWord_placeSelect, h])

/-- Settles O6: a word that decodes is placed as the select word it is, and then that select word is the
one of the state. -/
theorem placedWordRunsNext : Obligations.PlacedWordRunsNext := by
  intro s w i h
  obtain ⟨v, hb, hlt, hd⟩ := decodeTableWord_eq_some h
  rw [withFetchWord_of_select hb hlt]
  refine ⟨step_of_fetch ((fetch_placeSelect s _).trans hd), ?_, _, _, takeChoice_placeSelect s _⟩
  rw [enabled_takeChoice]
  exact enabled_placeSelect hd s

end Sys2Proof.Machine
end

section
/-! PROOF. The acknowledgement (30_encoding.md R44, R45): its one byte, and that nothing else is sent. -/

namespace Sys2Proof.Machine

open Sys2Proof

variable {s t : State}

/-- R59: `ACK` appends the one byte `ACK_BYTE` to what was sent. -/
theorem execAck_next_txlog (h : execAck s = .next t) : t.txlog = s.txlog ++ [s.cfg.ackByte] := by
  obtain ⟨-, rfl⟩ := execAck_next h
  simp

/-- Settles O28: `ACK` by what it sends, the bits of the reference `ACK_BYTE` by evaluation. -/
theorem acknowledgementFormat : Obligations.AcknowledgementFormat :=
  ⟨fun _ _ h => execAck_next_txlog h, by decide⟩

/-- Settles O36: a turn of `SEQ` in `phase = ACK` is the acknowledgement, every other step but a reset
keeps the log, and a reset empties it. -/
theorem nothingElseIsEverSent : Obligations.NothingElseIsEverSent := by
  intro s t h
  cases hc : nextChoice s with
  | sequencer e =>
    by_cases hp : s.phase = .ack
    · simp [step_turn_ack hc hp h, hp]
    · simp [(step_turnEffect hc h).txlog hp, hp]
  | linkByte b => simp [step_arrival hc h]
  | reset => simp [step_reset hc h]

end Sys2Proof.Machine
end

section
/-! PROOF. The operations of the Frame Receiver (40_receiver.md sections 1 to 5): the whole next state of
each where it is enabled, and the short read that is dropped (R61). -/

namespace Sys2Proof.Machine

open Sys2Proof

variable {s : State}

/-! ### The next state of each operation -/

theorem exec_flush (hl : s.cfg.legal = true) (hp : s.phase = .flush) :
    exec .flush s = .next { s with rxq := [], rxCount := 0, phase := .read } :=
  whenEnabled_of_enabled hl (by simp [enabled, hp]) _

theorem exec_rxabandon (hl : s.cfg.legal = true) (hp : s.phase = .read) (hq : s.rxq = []) :
    exec .rxabandon s = .next { s with phase := .check } :=
  whenEnabled_of_enabled hl (by simp [enabled, queueHasByte, hp, hq]) _

/-- R58: a complete frame is drawn from row 0. -/
theorem exec_check_full (hl : s.cfg.legal = true) (hp : s.phase = .check)
    (hfull : s.rxCount = s.cfg.frameBytes) :
    exec .check s = .next { s with y := 0, phase := .decode } := by
  refine (whenEnabled_of_enabled hl (by simp [enabled, hp]) _).trans ?_
  rw [if_pos (by simp [countComplete, hfull])]
  rfl

/-- R58: a read of any other count is dropped. -/
theorem exec_check_short (hl : s.cfg.legal = true) (hp : s.phase = .check)
    (hshort : s.rxCount ≠ s.cfg.frameBytes) : exec .check s = .next { s with phase := .flush } := by
  refine (whenEnabled_of_enabled hl (by simp [enabled, hp]) _).trans ?_
  rw [if_neg (by simp [countComplete, hshort])]
  rfl

theorem exec_ack (hl : s.cfg.legal = true) (hp : s.phase = .ack) :
    exec .ack s = .next { s with txlog := s.txlog ++ [s.cfg.ackByte], phase := .flush } :=
  whenEnabled_of_enabled hl (by simp [enabled, hp]) _

/-- R54: `LINKBYTE` has no enabling condition. -/
theorem exec_linkbyte (hl : s.cfg.legal = true) (b : Byte) :
    exec (.linkbyte b) s = .next (rxArrive s b) :=
  whenEnabled_of_enabled hl rfl _

/-- R56: after the byte is stored, the read stands one count higher and is complete or goes on. -/
theorem countByte_eq_readTo (hp : s.phase = .read) (q : List Byte) (m : List Host.Cell) :
    countByte ((s.setRxq q).setFb m) = s.readTo m (s.rxCount + 1) q s.env := by
  rw [countByte_eq]
  by_cases hlast : s.rxCount + 1 = s.cfg.frameBytes
  · simp [hlast, readPhase, State.readTo, State.setRxq, State.setFb, State.setRxCount, State.setPhase]
  · simp [hlast, hp, readPhase, State.readTo, State.setRxq, State.setFb, State.setRxCount]

theorem exec_rxbyte {b : Byte} {q : List Byte} (hl : s.cfg.legal = true) (hp : s.phase = .read)
    (hq : s.rxq = b :: q) (hlt : s.rxCount < s.cfg.frameBytes) :
    exec .rxbyte s = .next (s.readTo (Memory.write s.fb s.rxCount b) (s.rxCount + 1) q s.env) :=
  (execRxbyte_of_room hl hp hq hlt).trans (congrArg _ (countByte_eq_readTo hp q _))

/-! ### The statements about one operation -/

/-- Settles O10: `FLUSH` by its next state. -/
theorem flushEmptiesTheQueueAndStartsARead : Obligations.FlushEmptiesTheQueueAndStartsARead :=
  fun _ => exec_flush

/-- Settles O11: `RXBYTE` by its next state, and the frame buffer by the law of a write at one index. -/
theorem rxbyteStoresTheOldestByte : Obligations.RxbyteStoresTheOldestByte :=
  fun s b _ hl hp hq hlt => ⟨_, exec_rxbyte hl hp hq hlt, Memory.read_write s.fb s.rxCount b⟩

/-- Settles O12: `RXABANDON` by its next state. -/
theorem rxabandonEndsTheRead : Obligations.RxabandonEndsTheRead := fun _ => exec_rxabandon

/-- Settles O13: the two outcomes of the comparison, and that a next state comes from `phase = CHECK`
only. -/
theorem checkComparesTheCount : Obligations.CheckComparesTheCount :=
  fun _ hl => ⟨fun hp => ⟨exec_check_full hl hp, exec_check_short hl hp⟩,
    fun hp ⟨_, h⟩ => hp (execCheck_next h).1⟩

/-- Settles O14: `ACK` by its next state. -/
theorem ackEmitsOneByte : Obligations.AckEmitsOneByte := fun _ => exec_ack

/-- Settles O15: the arrival is possible in every state, and what becomes of the byte depends on the
room in the queue. -/
theorem linkbyteIsQueuedOrLost : Obligations.LinkbyteIsQueuedOrLost := by
  intro s b hl
  rw [exec_linkbyte hl]
  exact ⟨fun hroom => congrArg _ (rxArrive_room hroom), fun hfull => congrArg _ (rxArrive_full hfull)⟩

/-- Settles O41: `FLUSH` sets the queue and the count, the only two elements in which the states differ. -/
theorem flushForgetsTheQueue : Obligations.FlushForgetsTheQueue :=
  fun s q n hl hp => ⟨_, exec_flush hl hp, exec_flush (s := { s with rxq := q, rxCount := n }) hl hp⟩

/-! ### A short read (R61, 42_sequencer.md R76) -/

/-- R72: a turn of `SEQ` that is next in `env` runs the operation that the select word names. -/
theorem step_of_turn {e : Bool} {cs : List Choice} {i : Instr} (henv : s.env = .sequencer e :: cs)
    (hsel : decodeSel (selWord s e) = .ok i) : step s = exec i { s with env := cs } := by
  have hf : fetch s = .ok i := (fetch_sequencer (nextChoice_cons s _ cs henv)).trans hsel
  rw [step_of_fetch hf, takeChoice_cons s _ cs henv]

/-- Settles O47: the three turns are `RXABANDON`, `CHECK` with a short count, and `FLUSH`, which finds the
queue empty as it was. -/
theorem shortReadIsDroppedSilently : Obligations.ShortReadIsDroppedSilently := by
  intro s e f rest hl ⟨hp, hq⟩ hshort henv
  have habandon : step s =
      .next { s with phase := .check, env := .sequencer e :: .sequencer f :: rest } := by
    rw [step_of_turn henv ((selectWordNamesTheEnabledOperation s true .rxabandon).mpr (by simp [hp, hq]))]
    exact exec_rxabandon hl hp hq
  have hcheck : step { s with phase := .check, env := .sequencer e :: .sequencer f :: rest } =
      .next { s with phase := .flush, env := .sequencer f :: rest } := by
    rw [step_of_turn rfl ((selectWordNamesTheEnabledOperation _ e .check).mpr (by simp))]
    exact exec_check_short hl rfl (Nat.ne_of_lt hshort)
  have hflush : step { s with phase := .flush, env := .sequencer f :: rest } =
      .next { s with rxq := [], rxCount := 0, phase := .read, env := rest } := by
    rw [step_of_turn rfl ((selectWordNamesTheEnabledOperation _ f .flush).mpr (by simp))]
    exact exec_flush hl rfl
  rw [runSteps_succ habandon, runSteps_succ hcheck, runSteps_succ hflush, runSteps_zero, ← hq, ← hp]

end Sys2Proof.Machine
end

section
/-! PROOF. The operations of a cycle, one after the other (40_receiver.md R60, 30_encoding.md R53): the
read of a frame, the rows of a render (41_renderer.md R66), and the good and the bad cycle. -/

namespace Sys2Proof.Machine

open Sys2Proof

variable {s t : State}

/-! ### Traces -/

theorem runTrace_cons {i : Instr} (h : exec i s = .next t) (is : List Instr) :
    runTrace (i :: is) s = runTrace is t := by
  simp [runTrace, h]

theorem runTrace_append {is : List Instr} (h : runTrace is s = .next t) (js : List Instr) :
    runTrace (is ++ js) s = runTrace js t := by
  induction is generalizing s with
  | nil => cases h; rfl
  | cons i is ih =>
    rw [List.cons_append]
    cases hx : exec i s with
    | next u => exact (runTrace_cons hx _).trans (ih ((runTrace_cons hx is).symm.trans h))
    | fault f => simp [runTrace, hx] at h
    | refused r => simp [runTrace, hx] at h

/-! ### A read (20_memory.md R27) -/

/-- The operations `RXBYTE` of a read are the turns of `SEQ` in it, without the offers that select them. -/
theorem runTrace_rxbytes (hl : s.cfg.legal = true) (cs : List Choice) :
    ∀ (bs : List Byte) (m : List Host.Cell) (n : Nat), n + bs.length ≤ s.cfg.frameBytes →
      runTrace (List.replicate bs.length .rxbyte) (s.readTo m n bs cs) =
        runSteps bs.length
          (s.readTo m n bs ((List.replicate bs.length false).map .sequencer ++ cs))
  | [], _, _, _ => rfl
  | b :: bs, m, n, hroom => by
    rw [List.length_cons] at hroom
    have hn : n < s.cfg.frameBytes := by omega
    have hx : exec .rxbyte (s.readTo m n (b :: bs) cs) = .next _ :=
      exec_rxbyte hl (if_neg (Nat.ne_of_lt hn)) rfl hn
    have hstep : step (s.readTo m n (b :: bs)
        ((List.replicate (bs.length + 1) false).map .sequencer ++ cs)) = .next _ := step_readTo hl hn
    rw [List.length_cons, List.replicate_succ, runTrace_cons hx, runSteps_succ hstep]
    exact runTrace_rxbytes hl cs bs (Memory.write m n b) (n + 1) (by omega)

/-- R56: the operations of a read that takes all of the queue `bs`. -/
theorem runTrace_read {bs : List Byte} (hl : s.cfg.legal = true) (hp : s.phase = .read)
    (hcount : s.rxCount = 0) (hq : s.rxq = bs) (hroom : bs.length ≤ s.cfg.frameBytes) :
    ∃ m, runTrace (List.replicate bs.length .rxbyte) s = .next (s.readTo m bs.length [] s.env) ∧
      ∀ k, Memory.read m k = if k < bs.length then bs[k]? else Memory.read s.fb k := by
  have hstart : s = s.readTo s.fb 0 bs s.env := by
    have hread : readPhase s.cfg 0 = .read := if_neg (Nat.ne_of_lt (frameBytes_pos hl))
    rw [State.readTo, hread, ← hp, ← hcount, ← hq]
  have hroom' : 0 + bs.length ≤ s.cfg.frameBytes := by rwa [Nat.zero_add]
  obtain ⟨m, hrun, hread⟩ := runSteps_readTo hl [] s.env bs (List.replicate bs.length false) s.fb 0
    List.length_replicate hroom'
  rw [List.append_nil, ← runTrace_rxbytes hl s.env bs s.fb 0 hroom', ← hstart, Nat.zero_add] at hrun
  exact ⟨m, hrun, by simpa using hread⟩

/-! ### A row of a render (41_renderer.md R64, R65) -/

/-- R64: with every byte of the frame held, `DECODE` puts row `y` of it into the scanline. -/
theorem exec_decode_of_filled (hl : s.cfg.legal = true) (hp : s.phase = .decode) (hy : s.y < s.cfg.height)
    (hf : ∀ k < s.cfg.frameBytes, (Memory.read s.fb k).isSome = true) :
    ∃ row : List Color, row.length = s.cfg.width ∧
      (∀ x < s.cfg.width, row[x]? = framePixel s.cfg s.fb x s.y) ∧
      exec .decode s = .next ((slWriteRow s row).setPhase .write) := by
  have hin : rowBase s.cfg s.y + s.cfg.rowBytes ≤ s.cfg.frameBytes := row_inside hl hy
  obtain ⟨bytes, hread, hpixel⟩ := fbReadRun_row hl hy fun i hi => hf _ (by omega)
  refine ⟨rowColors s.cfg bytes, rowColors_length bytes, fun x hx => ?_, ?_⟩
  · rw [rowColors_getElem? bytes hx, hpixel x hx]
  · refine (whenEnabled_of_enabled hl (by simp [enabled, hp]) _).trans ?_
    rw [hread]

/-- R65: `WRROW` puts the row that the scanline holds on the display and goes on to the next. -/
theorem exec_wrrow_of_row {row : List Color} (hl : s.cfg.legal = true) (hp : s.phase = .write)
    (hy : s.y < s.cfg.height) (hlen : row.length = s.cfg.width)
    (hsl : ∀ x < s.cfg.width, Memory.read s.sl x = row[x]?) :
    exec .wrrow s = .next (nextRow (s.withRow row)) := by
  refine (whenEnabled_of_enabled hl (by simp [enabled, hp]) _).trans ?_
  rw [slReadRow_eq_ok.mpr ⟨hlen, hsl⟩]
  simp only [dispWriteRow_whole hy hlen]

/-- A row of as many pixels as the scanline has is what the scanline holds once it is written there. -/
theorem read_sl_slWriteRow {row : List Color} (hlen : row.length = s.cfg.width) {x : Nat}
    (hx : x < s.cfg.width) : Memory.read (slWriteRow s row).sl x = row[x]? := by
  simp [slWriteRow, Memory.read_writeRun, hlen, hx]

/-- R64, R65: `DECODE` and `WRROW` take row `y` of the frame to the display. -/
theorem runTrace_row (hl : s.cfg.legal = true) (hp : s.phase = .decode) (hy : s.y < s.cfg.height)
    (hf : ∀ k < s.cfg.frameBytes, (Memory.read s.fb k).isSome = true) :
    ∃ row : List Color, row.length = s.cfg.width ∧
      (∀ x < s.cfg.width, row[x]? = framePixel s.cfg s.fb x s.y) ∧
      runTrace [.decode, .wrrow] s =
        .next (nextRow (((slWriteRow s row).setPhase .write).withRow row)) := by
  obtain ⟨row, hlen, hpixel, hdecode⟩ := exec_decode_of_filled hl hp hy hf
  have hwrrow := exec_wrrow_of_row (s := (slWriteRow s row).setPhase .write) hl rfl hy hlen
    fun _ => read_sl_slWriteRow hlen
  exact ⟨row, hlen, hpixel, (runTrace_cons hdecode _).trans (runTrace_cons hwrrow _)⟩

/-! ### A render (41_renderer.md R66) -/

/-- The state of a render of `s` with `n` rows drawn: the row and the phase that follow them, the spaces
`sl` and `surf`, and `log` appended to `DISPLOG`. -/
def State.drawTo (s : State) (n : Nat) (sl surf : Memory Color) (log : List DispTxn) : State :=
  { s with
    phase := if n = s.cfg.height then .ack else .decode
    y := if n = s.cfg.height then 0 else n
    sl := sl
    surf := surf
    displog := s.displog ++ log }

/-- One more row is written to the scanline, to the surface and to the log. -/
theorem nextRow_drawTo {n : Nat} {sl surf : Memory Color} {log : List DispTxn} {row : List Color}
    (hn : n < s.cfg.height) :
    nextRow (((slWriteRow (s.drawTo n sl surf log) row).setPhase .write).withRow row) =
      s.drawTo (n + 1) (Memory.writeRun sl 0 row) (Memory.writeRun surf (surfIndex s.cfg 0 n) row)
        (log ++ [⟨0, n, s.cfg.width, row⟩]) := by
  have hne : n ≠ s.cfg.height := Nat.ne_of_lt hn
  rw [nextRow_eq]
  by_cases hlast : n + 1 = s.cfg.height
  · have hend : s.cfg.height - 1 = n := by omega
    simp [State.drawTo, State.withRow, slWriteRow, State.setSl, State.setPhase, State.setY, hne, hlast, hend]
  · have hend : n ≠ s.cfg.height - 1 := by omega
    simp [State.drawTo, State.withRow, slWriteRow, State.setSl, State.setPhase, State.setY, hne, hlast, hend]

/-- The log of a render goes on with the next row. -/
theorem IsRenderLog.append_row {c : Config} {m : List Host.Cell} {n : Nat} {log : List DispTxn}
    {row : List Color} (h : IsRenderLog c m n log) (hlen : row.length = c.width)
    (hrow : ∀ x < c.width, row[x]? = framePixel c m x n) :
    IsRenderLog c m (n + 1) (log ++ [⟨0, n, c.width, row⟩]) where
  count := by simp [h.count]
  rows r hr := by
    obtain hlt | rfl := Nat.lt_succ_iff_lt_or_eq.mp hr
    · rw [List.getElem?_append_left (h.count ▸ hlt)]
      exact h.rows r hlt
    · exact ⟨row, by simp [← h.count], hlen, hrow⟩

/-- R66, row by row: `n` times `DECODE`, `WRROW` draw the first `n` rows of the frame and log them. -/
theorem runTrace_rows (hl : s.cfg.legal = true) (hp : s.phase = .decode) (hy : s.y = 0)
    (hf : ∀ k < s.cfg.frameBytes, (Memory.read s.fb k).isSome = true) {n : Nat}
    (hn : n ≤ s.cfg.height) :
    ∃ sl surf log, runTrace (List.replicate n [.decode, .wrrow]).flatten s =
        .next (s.drawTo n sl surf log) ∧
      (∀ r < n, ∀ x < s.cfg.width,
        Memory.read surf (surfIndex s.cfg x r) = framePixel s.cfg s.fb x r) ∧
      IsRenderLog s.cfg s.fb n log := by
  induction n with
  | zero =>
    have hstart : s.drawTo 0 s.sl s.surf [] = s := by
      have hne : 0 ≠ s.cfg.height := Nat.ne_of_lt (height_pos hl)
      rw [State.drawTo, if_neg hne, if_neg hne, List.append_nil, ← hp, ← hy]
    exact ⟨s.sl, s.surf, [], congrArg _ hstart.symm, by simp, ⟨rfl, by simp⟩⟩
  | succ n ih =>
    obtain ⟨sl, surf, log, hrun, hdrawn, hlog⟩ := ih (Nat.le_of_succ_le hn)
    have hne : n ≠ s.cfg.height := Nat.ne_of_lt hn
    have hrow : (s.drawTo n sl surf log).y = n := if_neg hne
    obtain ⟨row, hlen, hpixel, hnext⟩ := runTrace_row (s := s.drawTo n sl surf log) hl (if_neg hne)
      (hrow.trans_lt hn) hf
    rw [hrow] at hpixel
    rw [nextRow_drawTo hn] at hnext
    refine ⟨Memory.writeRun sl 0 row, _, _, ?_, surf_drawn_succ hlen hdrawn hpixel,
      hlog.append_row hlen hpixel⟩
    rw [List.replicate_succ', List.flatten_append, runTrace_append hrun]
    exact hnext

/-- Where every pixel of the surface holds the one of the frame, the surface shows the frame. -/
theorem showsFrame_of_read {m : List Host.Cell} (hl : s.cfg.legal = true)
    (hf : ∀ k < s.cfg.frameBytes, (Memory.read m k).isSome = true)
    (h : ∀ r < s.cfg.height, ∀ x < s.cfg.width,
      Memory.read s.surf (surfIndex s.cfg x r) = framePixel s.cfg m x r) : s.showsFrame m := by
  intro r hr x hx
  obtain ⟨b, hb⟩ := Option.isSome_iff_exists.mp (hf _ (byteIndex_lt hl hx hr))
  have hpixel := h r hr x hx
  simp only [framePixel, hb, Option.map_some] at hpixel ⊢
  simp [surfPixel, hpixel]

/-- R66, R59: a render of the frame in `FB` and its acknowledgement. -/
theorem runTrace_renderTrace_ack (hl : s.cfg.legal = true) (hp : s.phase = .decode) (hy : s.y = 0)
    (hf : ∀ k < s.cfg.frameBytes, (Memory.read s.fb k).isSome = true) :
    ∃ sl surf log, runTrace (renderTrace s.cfg ++ [.ack]) s = .next { s with
        y := 0, sl := sl, surf := surf, displog := s.displog ++ log
        txlog := s.txlog ++ [s.cfg.ackByte], phase := .flush } ∧
      { s with surf := surf }.showsFrame s.fb ∧ IsRenderLog s.cfg s.fb s.cfg.height log := by
  obtain ⟨sl, surf, log, hrun, hdrawn, hlog⟩ := runTrace_rows hl hp hy hf le_rfl
  have hack := exec_ack (s := s.drawTo s.cfg.height sl surf log) hl (if_pos rfl)
  refine ⟨sl, surf, log, ?_, showsFrame_of_read (s := { s with surf := surf }) hl hf hdrawn, hlog⟩
  rw [renderTrace, runTrace_append hrun, runTrace_cons hack]
  simp [runTrace, State.drawTo]

/-! ### The cycles (R60) -/

/-- R53: the length of a good cycle. -/
theorem goodCycle_length (c : Config) : (goodCycle c).length = c.frameBytes + 2 * c.height + 3 := by
  simp [goodCycle, renderTrace]
  omega

/-- R60: a good cycle after its `FLUSH`. -/
theorem runTrace_goodCycle {F : List Byte} (hl : s.cfg.legal = true) (hp : s.phase = .read)
    (hcount : s.rxCount = 0) (hq : s.rxq = F) (hF : F.length = s.cfg.frameBytes) :
    ∃ m sl surf log, runTrace (goodCycle s.cfg).tail s = .next { s with
        rxq := [], fb := m, rxCount := F.length, y := 0, sl := sl, surf := surf
        displog := s.displog ++ log, txlog := s.txlog ++ [s.cfg.ackByte], phase := .flush } ∧
      (∀ k, Memory.read m k = if k < F.length then F[k]? else Memory.read s.fb k) ∧
      { s with surf := surf }.showsFrame m ∧ IsRenderLog s.cfg m s.cfg.height log := by
  obtain ⟨m, hread, hm⟩ := runTrace_read hl hp hcount hq hF.le
  have hfilled : ∀ k < s.cfg.frameBytes, (Memory.read m k).isSome = true := fun k hk => by
    simp [hm, hF, hk]
  have hcheck : exec .check (s.readTo m F.length [] s.env) = .next _ :=
    exec_check_full hl (if_pos hF) hF
  obtain ⟨sl, surf, log, hrender, hshows, hlog⟩ := runTrace_renderTrace_ack
    (s := { s.readTo m F.length [] s.env with y := 0, phase := .decode }) hl rfl rfl hfilled
  refine ⟨m, sl, surf, log, ?_, hm, hshows, hlog⟩
  have htail : (goodCycle s.cfg).tail =
      List.replicate F.length .rxbyte ++ (.check :: (renderTrace s.cfg ++ [.ack])) := by
    simp [goodCycle, hF]
  rw [htail, runTrace_append hread, runTrace_cons hcheck]
  exact hrender

/-- R60: a bad cycle after its `FLUSH`. -/
theorem runTrace_badCycle {bs : List Byte} (hl : s.cfg.legal = true) (hp : s.phase = .read)
    (hcount : s.rxCount = 0) (hq : s.rxq = bs) (hshort : bs.length < s.cfg.frameBytes) :
    ∃ m, runTrace (badCycle bs.length).tail s = .next { s with
        rxq := [], fb := m, rxCount := bs.length, phase := .flush } ∧
      ∀ k, Memory.read m k = if k < bs.length then bs[k]? else Memory.read s.fb k := by
  obtain ⟨m, hread, hm⟩ := runTrace_read hl hp hcount hq hshort.le
  have hne : bs.length ≠ s.cfg.frameBytes := Nat.ne_of_lt hshort
  have habandon : exec .rxabandon (s.readTo m bs.length [] s.env) = .next _ :=
    exec_rxabandon hl (if_neg hne) rfl
  have hcheck : exec .check { s.readTo m bs.length [] s.env with phase := .check } = .next _ :=
    exec_check_short hl rfl hne
  refine ⟨m, ?_, hm⟩
  have htail : (badCycle bs.length).tail = List.replicate bs.length .rxbyte ++ [.rxabandon, .check] := rfl
  rw [htail, runTrace_append hread, runTrace_cons habandon, runTrace_cons hcheck]
  rfl

/-- Settles O51: the length of a good cycle, and the two cycles after their `FLUSH`. -/
theorem cyclesHaveTheirShape : Obligations.CyclesHaveTheirShape :=
  ⟨goodCycle_length, goodCycle_length Config.reference, fun _ _ => runTrace_goodCycle,
    fun _ _ => runTrace_badCycle⟩

end Sys2Proof.Machine
end

section
/-! PROOF. The operations of the Frame Renderer (41_renderer.md sections 1 to 3): the whole next state of
`DECODE` and of `WRROW`, and that no other operation touches the display. -/

namespace Sys2Proof.Machine

open Sys2Proof

variable {s t : State}

/-! ### `DECODE` (R64) -/

/-- R64: with the bytes of row `y` held, `DECODE` puts the colours of its pixels into the scanline. -/
theorem exec_decode_of_row (hl : s.cfg.legal = true) (hp : s.phase = .decode) (hy : s.y < s.cfg.height)
    (hf : ∀ i < s.cfg.rowBytes, (Memory.read s.fb (rowBase s.cfg s.y + i)).isSome = true) :
    ∃ row : List Color, row.length = s.cfg.width ∧
      (∀ x < s.cfg.width, framePixel s.cfg s.fb x s.y = row[x]?) ∧
      exec .decode s = .next ((slWriteRow s row).setPhase .write) := by
  obtain ⟨bytes, hread, hpixel⟩ := fbReadRun_row hl hy hf
  refine ⟨rowColors s.cfg bytes, rowColors_length bytes, fun x hx => ?_, ?_⟩
  · rw [rowColors_getElem? bytes hx, hpixel x hx]
  · refine (whenEnabled_of_enabled hl (by simp [enabled, hp]) _).trans ?_
    rw [hread]

/-- R25, R46: a pixel that the frame has is the colour of a bit that the frame buffer holds. -/
theorem framePixel_eq_some {c : Config} {m : List Host.Cell} {x y : Nat} {v : Color} :
    framePixel c m x y = some v ↔
      ∃ b, Memory.read m (byteIndex c x y) = some b ∧ colorOf c (b.getLsbD (bitIndex x)) = v :=
  Option.map_eq_some_iff

/-- R29: a row written to the scanline leaves the elements past it as they were. -/
theorem read_sl_slWriteRow_past {row : List Color} (hlen : row.length = s.cfg.width) {x : Nat}
    (hx : s.cfg.width ≤ x) : Memory.read (slWriteRow s row).sl x = Memory.read s.sl x := by
  simp [slWriteRow, Memory.read_writeRun, hlen, Nat.not_lt.mpr hx]

/-- Settles O16: the scanline holds the row of pixels, each of them a bit of a byte of its row. -/
theorem decodeExpandsTheRow : Obligations.DecodeExpandsTheRow := by
  refine fun s hl => ⟨fun hp hy hf => ?_, fun hp ⟨t, ht⟩ => hp (execDecode_next ht).1⟩
  obtain ⟨row, hlen, hpixel, hx⟩ := exec_decode_of_row hl hp hy hf
  refine ⟨(slWriteRow s row).sl, hx, fun x hx => ?_, fun x => read_sl_slWriteRow_past hlen⟩
  have hrow : row[x]? = some (row[x]'(hlen ▸ hx)) := List.getElem?_eq_getElem _
  obtain ⟨v, hv, hcolor⟩ := framePixel_eq_some.mp ((hpixel x hx).trans hrow)
  exact ⟨v, hv, by rw [read_sl_slWriteRow hlen hx, hrow, ← hcolor]; rfl⟩

/-! ### `WRROW` (R65) -/

/-- R65: the surface with a row of the scanline written to row `y`, pixel by pixel. -/
theorem surfPixel_withRow {row : List Color} (hlen : row.length = s.cfg.width) {x : Nat}
    (hx : x < s.cfg.width) (r : Nat) :
    surfPixel (s.withRow row) x r = if r = s.y then row.getD x 0 else surfPixel s x r := by
  have hread : Memory.read (s.withRow row).surf (surfIndex s.cfg x r) = _ := read_surf_writeRow hlen hx
  rw [surfPixel, State.withRow_cfg, hread]
  by_cases hr : r = s.y
  · simp [hr, hlen, hx]
  · simp only [if_neg hr]
    rfl

/-- R65: a row written to the surface leaves the pixels before it and past it as they were. -/
theorem read_surf_withRow_outside {row : List Color} (hlen : row.length = s.cfg.width) {k : Nat}
    (hk : k < s.y * s.cfg.width ∨ s.y * s.cfg.width + s.cfg.width ≤ k) :
    Memory.read (s.withRow row).surf k = Memory.read s.surf k := by
  rw [State.withRow, Memory.read_writeRun, hlen, if_neg]
  rw [surfIndex]
  omega

/-- Settles O17: `WRROW` writes the row that the scanline holds and goes on to the next. -/
theorem wrrowTransfersTheScanline : Obligations.WrrowTransfersTheScanline := by
  intro s row hl hp hy hlen hsl
  refine ⟨(s.withRow row).surf, (exec_wrrow_of_row hl hp hy hlen hsl).trans (congrArg _ ?_),
    fun x => surfPixel_withRow hlen, fun k => read_surf_withRow_outside hlen⟩
  rw [nextRow_eq]
  by_cases hlast : s.y = s.cfg.height - 1
  · simp [hlast, State.withRow, State.setY, State.setPhase]
  · simp [hlast, State.withRow, State.setY, State.setPhase]

/-! ### The steps that touch the display (R68) -/

/-- What the display has been sent and what it shows are the same in both states. -/
structure SameDisplay (s t : State) : Prop where
  displog : t.displog = s.displog
  surf : t.surf = s.surf
  epoch : t.epoch = s.epoch

theorem SameDisplay.takeChoice (s : State) : SameDisplay s (takeChoice s) :=
  ⟨takeChoice_displog s, takeChoice_surf s, takeChoice_epoch s⟩

theorem SameDisplay.trans {u : State} (h : SameDisplay s t) (h' : SameDisplay t u) : SameDisplay s u :=
  ⟨h'.displog.trans h.displog, h'.surf.trans h.surf, h'.epoch.trans h.epoch⟩

/-- R68: no operation but `WRROW` and `RESET` touches the display. -/
theorem exec_sameDisplay {i : Instr} (hw : i ≠ .wrrow) (hr : i ≠ .reset) (h : exec i s = .next t) :
    SameDisplay s t := by
  cases i with
  | boot => obtain ⟨-, rfl⟩ := execBoot_next h; exact ⟨rfl, rfl, rfl⟩
  | flush => obtain ⟨-, rfl⟩ := execFlush_next h; exact ⟨rfl, rfl, rfl⟩
  | rxbyte =>
    obtain ⟨-, b, q, -, -, rfl⟩ := execRxbyte_next h
    exact ⟨countByte_displog _, countByte_surf _, countByte_epoch _⟩
  | rxabandon => obtain ⟨-, -, rfl⟩ := execRxabandon_next h; exact ⟨rfl, rfl, rfl⟩
  | check => obtain ⟨-, rfl⟩ := execCheck_next h; split <;> exact ⟨rfl, rfl, rfl⟩
  | decode => obtain ⟨-, row, -, -, -, rfl⟩ := execDecode_next h; exact ⟨rfl, rfl, rfl⟩
  | wrrow => exact absurd rfl hw
  | ack => obtain ⟨-, rfl⟩ := execAck_next h; exact ⟨rfl, rfl, rfl⟩
  | linkbyte b => rw [execLinkbyte_next h]; exact ⟨rfl, rfl, rfl⟩
  | reset => exact absurd rfl hr

/-- R68: outside `phase = WRITE` a turn of `SEQ` leaves the display alone. -/
theorem step_turn_sameDisplay {e : Bool} (hc : nextChoice s = .sequencer e) (hp : s.phase ≠ .write)
    (h : step s = .next t) : SameDisplay s t := by
  obtain ⟨i, hi, hx⟩ | ⟨-, rfl⟩ := step_turn hc h
  · refine (SameDisplay.takeChoice s).trans (exec_sameDisplay ?_ ?_ hx)
    · rintro rfl
      exact hp ((takeChoice_phase s).symm.trans (execWrrow_next hx).1)
    · rintro rfl
      simp [ofSequencer] at hi
  · exact .takeChoice s

/-- R65: a turn of `SEQ` in `phase = WRITE` is the transfer of the scanline to the display. -/
theorem step_turn_write {e : Bool} (hc : nextChoice s = .sequencer e) (hp : s.phase = .write)
    (h : step s = .next t) :
    ∃ row : List Color, row.length = s.cfg.width ∧ (∀ x < s.cfg.width, Memory.read s.sl x = row[x]?) ∧
      t = nextRow ((takeChoice s).withRow row) := by
  have hf : fetch s = .ok .wrrow :=
    (fetch_sequencer hc).trans ((selectWordNamesTheEnabledOperation s e .wrrow).mpr (by simp [hp]))
  have hx : execWrrow (takeChoice s) = .next t := (step_of_fetch hf).symm.trans h
  obtain ⟨-, -, row, hlen, hsl, ht⟩ := execWrrow_next_withRow hx
  exact ⟨row, by simpa using hlen, by simpa using hsl, ht⟩

/-- Settles O37: a turn in `phase = WRITE` is the one step that transfers a row; every other turn and an
arrival leave the display alone, and a reset empties what is known of it. -/
theorem displayIsWrittenByWholeRows : Obligations.DisplayIsWrittenByWholeRows := by
  intro s t h
  refine ⟨fun e hc hp => ?_, fun hreset hother => ?_, fun hc => ?_⟩
  · obtain ⟨row, hlen, hsl, rfl⟩ := step_turn_write hc hp h
    exact ⟨by simp [State.withRow], row, hlen, hsl, by simp⟩
  · have hsame : SameDisplay s t := by
      cases hc : nextChoice s with
      | sequencer e => exact step_turn_sameDisplay hc (hother.resolve_right (by simp [hc])) h
      | linkByte b => rw [step_arrival hc h]; exact (SameDisplay.takeChoice s).trans ⟨rfl, rfl, rfl⟩
      | reset => exact absurd hc hreset
    exact ⟨hsame.displog, hsame.surf, hsame.epoch⟩
  · simp [step_reset hc h]

end Sys2Proof.Machine
end

section
/-! PROOF. A render by turns of `SEQ` (41_renderer.md R66), and the frame decoded from the surface after it
(R67). -/

namespace Sys2Proof.Machine

open Sys2Proof

variable {s t : State}

/-! ### No operation depends on the coming choices (42_sequencer.md R72) -/

theorem whenEnabled_withEnv {i : Instr} {r r' : Result} {cs : List Choice}
    (h : whenEnabled i s r = .next t) (hr : r = .next t → r' = .next { t with env := cs }) :
    whenEnabled i { s with env := cs } r' = .next { t with env := cs } := by
  obtain ⟨hl, he, hnext⟩ := whenEnabled_eq_next.mp h
  exact whenEnabled_eq_next.mpr ⟨hl, by cases i <;> exact he, hr hnext⟩

theorem countByte_withEnv (s : State) (cs : List Choice) :
    countByte { s with env := cs } = { countByte s with env := cs } := by
  rw [countByte_eq, countByte_eq]
  split <;> rfl

theorem nextRow_withEnv (s : State) (cs : List Choice) :
    nextRow { s with env := cs } = { nextRow s with env := cs } := by
  rw [nextRow_eq, nextRow_eq]
  split <;> rfl

/-- An operation does the same whatever choices are to come, and leaves them as they are (log 2). -/
theorem exec_withEnv {i : Instr} (h : exec i s = .next t) (cs : List Choice) :
    exec i { s with env := cs } = .next { t with env := cs } := by
  cases i with
  | boot | flush | rxabandon | ack | linkbyte | reset =>
    exact whenEnabled_withEnv h fun hr => by cases hr; rfl
  | check =>
    have hl : s.cfg.legal = true := (whenEnabled_eq_next.mp h).1
    obtain ⟨hp, rfl⟩ := execCheck_next h
    split
    · next hfull => exact exec_check_full (s := { s with env := cs }) hl hp hfull
    · next hshort => exact exec_check_short (s := { s with env := cs }) hl hp hshort
  | rxbyte =>
    have hl : s.cfg.legal = true := (whenEnabled_eq_next.mp h).1
    obtain ⟨hp, b, q, hq, hlt, rfl⟩ := execRxbyte_next h
    rw [← countByte_withEnv]
    exact execRxbyte_of_room (s := { s with env := cs }) hl hp hq hlt
  | decode =>
    obtain ⟨-, row, hin, hlen, hread, rfl⟩ := execDecode_next h
    have hrow : fbReadRun { s with env := cs } (rowBase s.cfg s.y) s.cfg.rowBytes = .ok row :=
      fbReadRun_eq_ok.mpr ⟨hin, hlen, hread⟩
    exact whenEnabled_withEnv h fun _ => by rw [hrow]; rfl
  | wrrow =>
    have hl : s.cfg.legal = true := (whenEnabled_eq_next.mp h).1
    obtain ⟨hp, hy, row, hlen, hread, rfl⟩ := execWrrow_next_withRow h
    rw [← nextRow_withEnv]
    exact exec_wrrow_of_row (s := { s with env := cs }) hl hp hy hlen hread

/-! ### A trace as a run by turns of `SEQ` (42_sequencer.md R72, R78) -/

/-- The operations of `SEQ` that wait for no event of the environment (30_encoding.md R49). -/
def awaitsNoEvent : Instr → Bool
  | .flush | .rxbyte | .check | .decode | .wrrow | .ack => true
  | _ => false

/-- R72: such an operation, where it is enabled, is the one that a turn of `SEQ` selects, whatever is
offered. -/
theorem decodeSel_of_enabled {i : Instr} (hi : awaitsNoEvent i = true) (he : enabled i s = true) (e : Bool) :
    decodeSel (selWord s e) = .ok i := by
  rw [selectWordNamesTheEnabledOperation]
  cases i with
  | rxbyte =>
    obtain ⟨hp, hq⟩ : s.phase = .read ∧ s.rxq ≠ [] := by simpa [enabled, queueHasByte_iff] using he
    have hlen : 1 ≤ s.rxq.length := List.length_pos_iff.mpr hq
    simp [hp, hlen]
  | flush | check | decode | wrrow | ack => simpa [enabled] using he
  | boot | rxabandon | linkbyte | reset => simp [awaitsNoEvent] at hi

theorem enabled_of_exec_next {i : Instr} (h : exec i s = .next t) : enabled i s = true := by
  obtain ⟨r, hr⟩ := exec_eq_whenEnabled i s
  exact (whenEnabled_eq_next.mp (hr.symm.trans h)).2.1

/-- A turn of `SEQ` runs such an operation where it can happen. -/
theorem step_of_exec {i : Instr} {e : Bool} {cs : List Choice} (hi : awaitsNoEvent i = true)
    (h : exec i s = .next t) :
    step { s with env := .sequencer e :: cs } = .next { t with env := cs } := by
  have hx := exec_withEnv h (.sequencer e :: cs)
  rw [step_of_turn rfl (decodeSel_of_enabled hi (enabled_of_exec_next hx) e)]
  exact exec_withEnv h cs

/-- R78: a trace of such operations is the run of as many turns of `SEQ`, whatever is offered at them. -/
theorem runSteps_of_runTrace {is : List Instr} {rest : List Choice} (hi : ∀ i ∈ is, awaitsNoEvent i = true)
    (h : runTrace is s = .next t) {offers : List Bool} (hlen : offers.length = is.length) :
    runSteps is.length { s with env := offers.map .sequencer ++ rest } = .next { t with env := rest } := by
  induction is generalizing s offers with
  | nil =>
    obtain rfl := List.length_eq_zero_iff.mp hlen
    cases h
    rfl
  | cons i is ih =>
    obtain ⟨e, offers, rfl⟩ := List.exists_cons_of_length_eq_add_one hlen
    obtain ⟨hfirst, hrest⟩ := List.forall_mem_cons.mp hi
    cases hx : exec i s with
    | next u =>
      have hu : runTrace is u = .next t := (runTrace_cons hx is).symm.trans h
      rw [List.length_cons, List.map_cons, List.cons_append, runSteps_succ (step_of_exec hfirst hx)]
      exact ih hrest hu (Nat.succ.inj hlen)
    | fault f => simp [runTrace, hx] at h
    | refused r => simp [runTrace, hx] at h

/-! ### A render (R66) -/

theorem renderTrace_length (c : Config) : (renderTrace c).length = 2 * c.height := by
  simp [renderTrace, Nat.mul_comm]

theorem awaitsNoEvent_of_mem_renderTrace {c : Config} {i : Instr} (h : i ∈ renderTrace c) :
    awaitsNoEvent i = true := by
  simp only [renderTrace, List.mem_flatten, List.mem_replicate] at h
  obtain ⟨is, ⟨-, rfl⟩, hi⟩ := h
  obtain rfl | rfl : i = .decode ∨ i = .wrrow := by simpa using hi
  · rfl
  · rfl

/-- Settles O48: a render is a trace of `2 * H` operations that wait for no event, and draws every row. -/
theorem renderDrawsTheFrame : Obligations.RenderDrawsTheFrame := by
  intro s offers rest hl hp hy hf hlen henv
  obtain ⟨sl, surf, log, htrace, hdrawn, hlog⟩ := runTrace_rows hl hp hy hf le_rfl
  have hrun : runSteps (renderTrace s.cfg).length s =
      .next { s.drawTo s.cfg.height sl surf log with env := rest } := by
    have hturns := runSteps_of_runTrace (rest := rest) (fun _ => awaitsNoEvent_of_mem_renderTrace) htrace
      (hlen.trans (renderTrace_length s.cfg).symm)
    rwa [← henv] at hturns
  refine ⟨sl, surf, log, ?_, showsFrame_of_read (s := { s with surf := surf }) hl hf hdrawn, hlog⟩
  rw [← renderTrace_length, hrun]
  simp [State.drawTo]

/-! ### The frame read back (R67) -/

/-- The bits of a number put together from the most significant down. -/
theorem testBit_foldl_range (bit : Nat → Bool) (n i : Nat) :
    ((List.range n).foldl (fun acc j => 2 * acc + (bit j).toNat) 0).testBit i =
      (decide (i < n) && bit (n - 1 - i)) := by
  induction n generalizing i with
  | zero => simp
  | succ n ih =>
    rw [List.range_succ, List.foldl_append, List.foldl_cons, List.foldl_nil, ← Nat.bit_val]
    cases i with
    | zero => simp
    | succ i => rw [Nat.testBit_bit_succ, ih]; simp [Nat.sub_sub, Nat.add_comm]

/-- R26: bit `7 - j` of a packed byte is the `j`-th of its pixels. -/
theorem packByte_getLsbD (bit : Nat → Bool) {i : Nat} (hi : i < 8) :
    (packByte bit).getLsbD i = bit (7 - i) := by
  rw [packByte, BitVec.getLsbD_ofNat, testBit_foldl_range]
  simp [hi]

theorem packByte_eq {bit : Nat → Bool} {v : Byte} (h : ∀ j < 8, bit j = v.getLsbD (7 - j)) :
    packByte bit = v := by
  refine BitVec.eq_of_getLsbD_eq fun i hi => ?_
  rw [packByte_getLsbD bit hi, h _ (by omega), Nat.sub_sub_self (by omega)]

/-- R46: the two colours differ, so a pixel shows `COLOR_ON` exactly when its bit is 1. -/
theorem colorOf_beq_colorOn {c : Config} (hl : c.legal = true) (bit : Bool) :
    (colorOf c bit == c.colorOn) = bit := by
  obtain ⟨-, hne, -⟩ := (legal_iff c).mp hl
  cases bit with
  | true => simp [colorOf]
  | false => simpa [colorOf] using hne.symm

/-- R25: the pixels of byte `k` of a frame stand in its row, at the eight columns of its place there. -/
theorem byteIndex_of_byte {c : Config} {k j : Nat} (hj : j < 8) :
    byteIndex c (8 * (k % c.rowBytes) + j) (k / c.rowBytes) = k := by
  rw [byteIndex, rowBase, Nat.mul_add_div (by omega), Nat.div_eq_of_lt hj, Nat.add_zero, Nat.mul_comm]
  exact Nat.div_add_mod k c.rowBytes

/-- R66: in `phase = ACK` the surface shows the frame. -/
theorem State.Inv.showsFrame (h : s.Inv) (hp : s.phase = .ack) : s.showsFrame s.fb := by
  have hfull : s.rxCount = s.cfg.frameBytes := h.countFull (by simp [State.drawing, hp])
  have hdrawn := h.surfDrawn
  rw [State.rowsDrawn, hp] at hdrawn
  exact showsFrame_of_read h.configLegal (hfull ▸ h.fbFilled) hdrawn

/-- R67: where the surface shows the frame, a byte of the frame is the one decoded from the surface. -/
theorem decodedByte_of_showsFrame {m : List Host.Cell} {k : Nat} {v : Byte} (hl : s.cfg.legal = true)
    (h : s.showsFrame m) (hk : k < s.cfg.frameBytes) (hv : Memory.read m k = some v) :
    decodedByte s k = v := by
  have hwidth : s.cfg.width = 8 * s.cfg.rowBytes := width_eq hl
  have hcol : k % s.cfg.rowBytes < s.cfg.rowBytes := Nat.mod_lt _ (rowBytes_pos hl)
  have hrow : k / s.cfg.rowBytes < s.cfg.height := Nat.div_lt_of_lt_mul (frameBytes_eq hl ▸ hk)
  refine packByte_eq fun j hj => ?_
  have hpixel := h _ hrow (8 * (k % s.cfg.rowBytes) + j) (by omega)
  rw [framePixel, byteIndex_of_byte hj, hv, Option.map_some, Option.some.injEq] at hpixel
  have hbit : bitIndex (8 * (k % s.cfg.rowBytes) + j) = 7 - j := by unfold bitIndex; omega
  rw [hpixel, colorOf_beq_colorOn hl, hbit]

/-- Settles O49: in `phase = ACK` every byte of the frame is held and the surface shows the frame. -/
theorem drawnFrameReadsBackExactly : Obligations.DrawnFrameReadsBackExactly := by
  intro s h hp k hk
  have hfull : s.rxCount = s.cfg.frameBytes := h.countFull (by simp [State.drawing, hp])
  obtain ⟨v, hv⟩ := Option.isSome_iff_exists.mp (h.fbFilled k (hfull ▸ hk))
  rw [hv, decodedByte_of_showsFrame h.configLegal (h.showsFrame hp) hk hv]

end Sys2Proof.Machine
end

section
/-! PROOF. How a step is chosen (42_sequencer.md R70 to R74): the operation that a turn runs, the turn that
holds, the operation that is refused, the graph of `phase`, and the operations that can be observed. -/

namespace Sys2Proof.Machine

open Sys2Proof

variable {s t : State}

/-! ### The step of a choice (R71, R73) -/

theorem nextChoice_nil (s : State) (h : s.env = []) : nextChoice s = Config.environment s.clock := by
  simp [nextChoice, h]

/-- Settles O7: the operation of each kind of choice is the one that its signal decodes to, and the choice
used up is the first of `env` or, where there is none, the free one at the clock. -/
theorem stepRunsTheDecodedOperation : Obligations.StepRunsTheDecodedOperation :=
  fun s => ⟨fun _ _ hc hsel => step_of_fetch ((fetch_sequencer hc).trans hsel),
    fun _ hc => step_of_fetch (fetch_linkByte hc), fun hc => step_of_fetch (fetch_reset hc),
    fun c cs henv => ⟨nextChoice_cons s c cs henv, takeChoice_cons s c cs henv⟩,
    fun henv => ⟨nextChoice_nil s henv, takeChoice_nil s henv⟩⟩

theorem step_of_fetch_error {f : DecodeError} (hl : s.cfg.legal = true) (h : fetch s = .error f) :
    step s = .next (takeChoice s) := by
  rw [step, h]
  exact hold_eq_next.mpr ⟨by rwa [takeChoice_cfg], rfl⟩

/-- Settles O8: the select word of each of the three situations is one of the patterns of O2 that name no
operation. -/
theorem sequencerHoldsWithNothingEnabled : Obligations.SequencerHoldsWithNothingEnabled := by
  intro s e hl hc hidle
  have hsel := (selectPatternsFollowTheOperationMap s.phase (queueHasByte s) e).2
  rw [← fetch_sequencer hc] at hsel
  obtain ⟨hp, rfl⟩ | ⟨hp, hq, rfl⟩ | hp := hidle
  · exact step_of_fetch_error hl (by simpa [hp] using hsel)
  · exact step_of_fetch_error hl (by simpa [hp, hq, queueHasByte] using hsel)
  · exact step_of_fetch_error hl (by simpa [hp] using hsel)

/-! ### `BOOT`, and the operations not enabled (R70, R72) -/

theorem exec_boot (hl : s.cfg.legal = true) (hp : s.phase = .wait) :
    exec .boot s = .next { s with phase := .flush } :=
  whenEnabled_of_enabled hl (by simp [enabled, hp]) _

/-- Settles O9: `BOOT` by its next state. -/
theorem bootLeavesWaiting : Obligations.BootLeavesWaiting := fun _ => exec_boot

theorem whenEnabled_of_not_enabled {i : Instr} (hl : s.cfg.legal = true) (he : enabled i s = false)
    (r : Result) : whenEnabled i s r = .refused (.notEnabled i) := by
  simp [whenEnabled, hl, he]

/-- Settles O20: every arm of `exec` stands behind its own enabling condition. -/
theorem operationsNotEnabledAreRefused : Obligations.OperationsNotEnabledAreRefused := by
  intro s i hl he
  obtain ⟨r, hr⟩ := exec_eq_whenEnabled i s
  rw [hr, whenEnabled_of_not_enabled hl he]

/-! ### The graph of `phase` (R74) -/

/-- Settles O34: an operation that answers was enabled, and leads where the graph says. -/
theorem phaseFollowsTheGraph : Obligations.PhaseFollowsTheGraph :=
  fun _ _ _ h => ⟨enabled_of_exec_next h, exec_next_phase h⟩

/-! ### What can be observed (R76) -/

theorem SameDisplay.surfPixel (h : SameDisplay s t) (hcfg : t.cfg = s.cfg) (x y : Nat) :
    surfPixel t x y = surfPixel s x y := by
  simp only [Machine.surfPixel, hcfg, h.surf, h.epoch]

/-- The observation is `TXLOG` and the display. -/
theorem SameDisplay.observe (h : SameDisplay s t) (hcfg : t.cfg = s.cfg) (htx : t.txlog = s.txlog) :
    t.observe = s.observe := by
  simp only [State.observe, shownPixels, hcfg, htx, h.displog, h.surfPixel hcfg]

/-- R72: in `phase = ACK` the sequencer has no operation but `ACK`. -/
theorem eq_ack_of_enabled {i : Instr} (hi : ofSequencer i = true) (he : enabled i s = true)
    (hp : s.phase = .ack) : i = .ack := by
  cases i with
  | ack => rfl
  | boot | flush | rxbyte | rxabandon | check | decode | wrrow => simp [enabled, hp] at he
  | linkbyte | reset => simp [ofSequencer] at hi

/-- R45: no operation but `ACK` and `RESET` writes `TXLOG`. -/
theorem exec_next_txlog {i : Instr} (ha : i ≠ .ack) (hr : i ≠ .reset) (h : exec i s = .next t) :
    t.txlog = s.txlog := by
  cases hi : ofSequencer i with
  | true => exact (exec_turnEffect hi h).txlog fun hp => ha (eq_ack_of_enabled hi (enabled_of_exec_next h) hp)
  | false =>
    cases i with
    | linkbyte b => rw [execLinkbyte_next h, rxArrive_txlog]
    | reset => exact absurd rfl hr
    | _ => simp [ofSequencer] at hi

/-- Settles O43: the display changes by `WRROW` and `RESET` only, `TXLOG` by `ACK` and `RESET` only. -/
theorem onlyThreeStepsAreObservable : Obligations.OnlyThreeStepsAreObservable := by
  intro i s t h hw ha hr
  have hcfg : t.cfg = s.cfg := exec_next_cfg h
  have hsame : SameDisplay s t := exec_sameDisplay hw hr h
  exact ⟨hsame.observe hcfg (exec_next_txlog ha hr h), hsame.surf, hsame.surfPixel hcfg⟩

end Sys2Proof.Machine
end

section
/-! PROOF. No step from a state of the invariant stops (42_sequencer.md R71). -/

namespace Sys2Proof.Machine

open Sys2Proof

variable {s : State}

/-- The operation that the next choice selects is enabled (R72). -/
theorem enabled_of_fetch {i : Instr} (h : fetch s = .ok i) : enabled i s = true := by
  cases hc : nextChoice s with
  | sequencer e => exact enabled_of_decodeSel ((fetch_sequencer hc).symm.trans h)
  | linkByte b => rw [← Except.ok.inj ((fetch_linkByte hc).symm.trans h)]; rfl
  | reset => rw [← Except.ok.inj ((fetch_reset hc).symm.trans h)]; rfl

/-- R21 item 5: while a frame is drawn every byte of it is held. -/
theorem State.Inv.frame_filled (h : s.Inv) (hd : s.drawing = true) :
    ∀ k < s.cfg.frameBytes, (Memory.read s.fb k).isSome = true :=
  h.countFull hd ▸ h.fbFilled

/-- R21 item 7: in `phase = WRITE` every element of the scanline holds the colour of its pixel. -/
theorem State.Inv.scanline_filled (h : s.Inv) (hp : s.phase = .write) :
    ∀ x < s.cfg.width, (Memory.read s.sl x).isSome = true := by
  intro x hx
  have hbyte := h.frame_filled (by simp [State.drawing, hp]) _ (byteIndex_lt h.configLegal hx h.rowBound)
  rw [h.slRow hp x hx, framePixel, Option.isSome_map]
  exact hbyte

/-- R71: under the invariant an operation that is enabled completes. Only `RXBYTE`, `DECODE` and `WRROW` could
stop: the count of a read is an index of the frame, the bytes of the frame are held, and so is the scanline. -/
theorem State.Inv.exec_completes (h : s.Inv) {i : Instr} (he : enabled i s = true) :
    ∃ t, Machine.exec i s = .next t := by
  have hl := h.configLegal
  cases i with
  | boot | flush | rxabandon | check | ack | linkbyte | reset => exact ⟨_, whenEnabled_of_enabled hl he _⟩
  | rxbyte =>
    obtain ⟨hp, hq⟩ : s.phase = .read ∧ s.rxq ≠ [] := by simpa [enabled, queueHasByte_iff] using he
    obtain ⟨b, q, hbq⟩ := List.exists_cons_of_ne_nil hq
    exact ⟨_, exec_rxbyte hl hp hbq (h.countShort hp)⟩
  | decode =>
    have hp : s.phase = .decode := by simpa [enabled] using he
    obtain ⟨row, -, -, hx⟩ :=
      exec_decode_of_filled hl hp h.rowBound (h.frame_filled (by simp [State.drawing, hp]))
    exact ⟨_, hx⟩
  | wrrow =>
    have hp : s.phase = .write := by simpa [enabled] using he
    obtain ⟨row, hrow⟩ := slReadRow_of_filled (h.scanline_filled hp)
    obtain ⟨hlen, hsl⟩ := slReadRow_eq_ok.mp hrow
    exact ⟨_, exec_wrrow_of_row hl hp h.rowBound hlen hsl⟩

/-- Settles O31: a choice selects an operation that is enabled, which completes, or none, which is a hold. -/
theorem invariantStatesNeverStop : Obligations.InvariantStatesNeverStop := by
  intro s h
  cases hf : fetch s with
  | ok i =>
    rw [step_of_fetch hf]
    exact h.takeChoice.exec_completes (by rw [enabled_takeChoice]; exact enabled_of_fetch hf)
  | error f => exact ⟨_, step_of_fetch_error h.configLegal hf⟩

end Sys2Proof.Machine
end

section
/-! PROOF. Runs under given choices (42_sequencer.md R73, R78): an operation neither looks at the coming
choices nor changes them, so a run under given choices is the run with those choices coming. -/

namespace Sys2Proof.Machine

open Sys2Proof

variable {s t : State}

/-! ### Outcomes with other choices to come (R78, log 2) -/

/-- The outcome with the coming choices replaced, where it is a next state. -/
def withEnv (cs : List Choice) : Result → Result
  | .next t => .next { t with env := cs }
  | .fault f => .fault f
  | .refused r => .refused r

theorem whenEnabled_eq_withEnv {i : Instr} {r r' : Result} {cs : List Choice} (h : r' = withEnv cs r) :
    whenEnabled i { s with env := cs } r' = withEnv cs (whenEnabled i s r) := by
  have he : enabled i { s with env := cs } = enabled i s := by cases i <;> rfl
  simp only [whenEnabled, he, h]
  split
  · split <;> rfl
  · rfl

theorem hold_eq_withEnv (s : State) (cs : List Choice) : hold { s with env := cs } = withEnv cs (hold s) := by
  simp only [hold]
  split <;> rfl

/-- `RXBYTE` stops on an empty queue and on a complete count, neither of which is a coming choice. -/
theorem execRxbyte_eq_withEnv (s : State) (cs : List Choice) :
    execRxbyte { s with env := cs } = withEnv cs (execRxbyte s) := by
  refine whenEnabled_eq_withEnv ?_
  by_cases hq : s.rxq = []
  · simp only [rxPop, hq, withEnv]
  · obtain ⟨b, q, hbq⟩ := List.exists_cons_of_ne_nil hq
    simp only [rxPop_cons (s := s) hbq, rxPop_cons (s := { s with env := cs }) hbq, fbWrite]
    by_cases hlt : s.rxCount < s.cfg.frameBytes
    · simp only [State.setRxq_cfg, State.setRxq_rxCount, hlt, ↓reduceIte]
      exact congrArg _ <| countByte_withEnv ((s.setRxq q).setFb (Memory.write s.fb s.rxCount b)) cs
    · simp [hlt, withEnv]

theorem execCheck_eq_withEnv (s : State) (cs : List Choice) :
    execCheck { s with env := cs } = withEnv cs (execCheck s) := by
  have hcount : countComplete { s with env := cs } = countComplete s := rfl
  refine whenEnabled_eq_withEnv ?_
  rw [hcount]
  cases countComplete s <;> rfl

theorem execDecode_eq_withEnv (s : State) (cs : List Choice) :
    execDecode { s with env := cs } = withEnv cs (execDecode s) := by
  have hread : fbReadRun { s with env := cs } (rowBase s.cfg s.y) s.cfg.rowBytes =
    fbReadRun s (rowBase s.cfg s.y) s.cfg.rowBytes := rfl
  refine whenEnabled_eq_withEnv ?_
  rw [hread]
  cases fbReadRun s (rowBase s.cfg s.y) s.cfg.rowBytes <;> rfl

/-- `WRROW` stops on a pixel or a row that is missing, neither of which is a coming choice. -/
theorem execWrrow_eq_withEnv (s : State) (cs : List Choice) :
    execWrrow { s with env := cs } = withEnv cs (execWrrow s) := by
  have hread : slReadRow { s with env := cs } = slReadRow s := rfl
  refine whenEnabled_eq_withEnv ?_
  rw [hread]
  cases hrow : slReadRow s with
  | error f => rfl
  | ok row =>
    obtain ⟨hlen, -⟩ := slReadRow_eq_ok.mp hrow
    obtain hy | hy := Nat.lt_or_ge s.y s.cfg.height
    · simp only [dispWriteRow_whole (a := s) hy hlen, dispWriteRow_whole (a := { s with env := cs }) hy hlen]
      exact congrArg _ (nextRow_withEnv (s.withRow row) cs)
    · simp only [dispWriteRow_outOfRange (s := s) hy, dispWriteRow_outOfRange (s := { s with env := cs }) hy,
        withEnv]

/-- Every operation has the same outcome whatever choices are to come, stops included. -/
theorem exec_eq_withEnv (i : Instr) (s : State) (cs : List Choice) :
    exec i { s with env := cs } = withEnv cs (exec i s) := by
  cases i with
  | boot | flush | rxabandon | ack | linkbyte | reset => exact whenEnabled_eq_withEnv (r := .next _) rfl
  | check => exact execCheck_eq_withEnv s cs
  | rxbyte => exact execRxbyte_eq_withEnv s cs
  | decode => exact execDecode_eq_withEnv s cs
  | wrrow => exact execWrrow_eq_withEnv s cs

/-! ### The step under a choice -/

theorem stepWith_of_decode {c : Choice} {i : Instr} (h : decode (signalOf s c) = .ok i) :
    stepWith c s = exec i s :=
  step_of_fetch (s := { s with env := c :: s.env }) h

theorem stepWith_of_decode_error {c : Choice} {f : DecodeError} (h : decode (signalOf s c) = .error f) :
    stepWith c s = hold s := by
  have hf : fetch { s with env := c :: s.env } = .error f := h
  rw [stepWith, step, hf]
  rfl

/-- A step under a choice neither looks at the choices that come after it nor changes them. -/
theorem stepWith_eq_withEnv (c : Choice) (s : State) (cs : List Choice) :
    stepWith c { s with env := cs } = withEnv cs (stepWith c s) := by
  cases h : decode (signalOf s c) with
  | ok i => rw [stepWith_of_decode h, stepWith_of_decode (s := { s with env := cs }) h, exec_eq_withEnv]
  | error f =>
    rw [stepWith_of_decode_error h, stepWith_of_decode_error (s := { s with env := cs }) h, hold_eq_withEnv]

/-- A step under a choice leaves the coming choices as they are. -/
theorem stepWith_next_env {c : Choice} (h : stepWith c s = .next t) : t.env = s.env := by
  have hsame : stepWith c s = withEnv s.env (stepWith c s) := stepWith_eq_withEnv c s s.env
  rw [h, withEnv, Host.Outcome.next.injEq] at hsame
  rw [hsame]

/-! ### Runs (R78) -/

theorem runSteps_succ_fault {n : Nat} {f : Fault} (h : step s = .fault f) :
    runSteps (n + 1) s = .fault f := by
  have h' : Sys2Proof.core.step s = .fault f := h
  simp only [runSteps, Host.Core.run, h']
  rfl

theorem runSteps_succ_refused {n : Nat} {r : Refusal} (h : step s = .refused r) :
    runSteps (n + 1) s = .refused r := by
  have h' : Sys2Proof.core.step s = .refused r := h
  simp only [runSteps, Host.Core.run, h']
  rfl

theorem runChoices_cons {c : Choice} (h : stepWith c s = .next t) (cs : List Choice) :
    runChoices (c :: cs) s = runChoices cs t := by
  simp [runChoices, h]

/-- Settles O53: the first choice makes the same step in both runs, and leaves the others to come. -/
theorem choicesInTheStateGiveTheSameRun : Obligations.ChoicesInTheStateGiveTheSameRun := by
  intro cs
  induction cs with
  | nil => exact fun _ => rfl
  | cons c cs ih =>
    intro s
    have hfirst : step { s with env := c :: cs ++ s.env } = withEnv (cs ++ s.env) (stepWith c s) :=
      stepWith_eq_withEnv c s (cs ++ s.env)
    rw [List.length_cons]
    cases hx : stepWith c s with
    | next t =>
      rw [hx] at hfirst
      rw [runChoices_cons hx, ih, runSteps_succ hfirst, stepWith_next_env hx]
    | fault f =>
      rw [hx] at hfirst
      rw [runSteps_succ_fault hfirst, runChoices, hx]
    | refused r =>
      rw [hx] at hfirst
      rw [runSteps_succ_refused hfirst, runChoices, hx]

end Sys2Proof.Machine
end

section
/-! PROOF. An idle-stable state (42_sequencer.md R76): with nothing arriving the sequencer goes round the empty
bad cycle `RXABANDON, CHECK, FLUSH`, one operation at a time or holding in the read. -/

namespace Sys2Proof.Machine

open Sys2Proof

variable {s t : State}

/-! ### Along the empty bad cycles -/

/-- The operation number `k` of empty bad cycles one after the other. -/
def emptyCycleOp (k : Nat) : Instr :=
  if k % 3 = 0 then .rxabandon else if k % 3 = 1 then .check else .flush

/-- The phase before the operation number `k`. -/
def emptyCyclePhase (k : Nat) : Phase :=
  if k % 3 = 0 then .read else if k % 3 = 1 then .check else .flush

/-- The state in which `k` operations of empty bad cycles leave a read with nothing buffered: the first `FLUSH`
clears the count. -/
def State.alongEmptyCycles (s : State) (k : Nat) : State :=
  { s with phase := emptyCyclePhase k, rxCount := if k < 3 then s.rxCount else 0 }

theorem State.alongEmptyCycles_zero (hp : s.phase = .read) : s.alongEmptyCycles 0 = s := by
  rw [State.alongEmptyCycles, if_pos (by omega), show emptyCyclePhase 0 = s.phase from hp.symm]

/-- R76: whole cycles lead back to the read, with the count 0. -/
theorem State.alongEmptyCycles_whole (hp : s.phase = .read) (n : Nat) :
    s.alongEmptyCycles (3 * n) = { s with rxCount := if n = 0 then s.rxCount else 0 } := by
  have hphase : emptyCyclePhase (3 * n) = s.phase := by simp [emptyCyclePhase, hp]
  have hcount : 3 * n < 3 ↔ n = 0 := by omega
  simp only [State.alongEmptyCycles, hphase, hcount]

theorem State.alongEmptyCycles_observe (s : State) (k : Nat) :
    (s.alongEmptyCycles k).observe = s.observe := rfl

theorem emptyBadCycles_eq (n : Nat) : emptyBadCycles n = (List.range' 0 (3 * n)).map emptyCycleOp := by
  induction n with
  | zero => rfl
  | succ n ih =>
    have hcycle : (List.range' (0 + 3 * n) 3).map emptyCycleOp = [.rxabandon, .check, .flush] := by
      simp [List.range', emptyCycleOp, Nat.add_assoc]
    rw [Nat.mul_succ, ← List.range'_append_1, List.map_append, hcycle, ← ih]
    simp [emptyBadCycles, List.replicate_succ']

theorem emptyCycleOps_isPrefix (n : Nat) : (List.range' 0 n).map emptyCycleOp <+: emptyBadCycles n := by
  rw [emptyBadCycles_eq]
  refine List.IsPrefix.map _ ⟨List.range' (0 + n) (2 * n), ?_⟩
  rw [List.range'_append_1]
  congr 1
  omega

/-! ### The turns of `SEQ` -/

/-- With nothing buffered a turn of `SEQ` selects the next operation of the cycle, if any. -/
theorem eq_emptyCycleOp_of_decodeSel (hq : s.rxq = []) {k : Nat} {e : Bool} {i : Instr}
    (h : decodeSel (selWord (s.alongEmptyCycles k) e) = .ok i) : i = emptyCycleOp k := by
  have henabled := (selectWordNamesTheEnabledOperation _ _ _).mp h
  simp only [State.alongEmptyCycles, emptyCyclePhase] at henabled
  obtain hk | hk | hk : k % 3 = 0 ∨ k % 3 = 1 ∨ k % 3 = 2 := by omega
  · obtain ⟨rfl, -⟩ : i = .rxabandon ∧ e = true := by simpa [hk, hq] using henabled
    simp [emptyCycleOp, hk]
  · obtain rfl : i = .check := by simpa [hk] using henabled
    simp [emptyCycleOp, hk]
  · obtain rfl : i = .flush := by simpa [hk] using henabled
    simp [emptyCycleOp, hk]

/-- R61: a read with a short count goes through `CHECK` to `FLUSH`, which finds the queue empty as it was. -/
theorem exec_emptyCycleOp (hl : s.cfg.legal = true) (hq : s.rxq = []) (hshort : s.rxCount < s.cfg.frameBytes)
    (k : Nat) : exec (emptyCycleOp k) (s.alongEmptyCycles k) = .next (s.alongEmptyCycles (k + 1)) := by
  obtain hk | hk | hk : k % 3 = 0 ∨ k % 3 = 1 ∨ k % 3 = 2 := by omega
  · have hop : emptyCycleOp k = .rxabandon := by simp [emptyCycleOp, hk]
    have hp : (s.alongEmptyCycles k).phase = .read := by simp [State.alongEmptyCycles, emptyCyclePhase, hk]
    have hnext : (k + 1) % 3 = 1 ∧ (k + 1 < 3 ↔ k < 3) := by omega
    rw [hop, exec_rxabandon (s := s.alongEmptyCycles k) hl hp hq]
    simp [State.alongEmptyCycles, emptyCyclePhase, hnext]
  · have hop : emptyCycleOp k = .check := by simp [emptyCycleOp, hk]
    have hp : (s.alongEmptyCycles k).phase = .check := by simp [State.alongEmptyCycles, emptyCyclePhase, hk]
    have hnext : (k + 1) % 3 = 2 ∧ (k + 1 < 3 ↔ k < 3) := by omega
    have hcount : (s.alongEmptyCycles k).rxCount ≠ s.cfg.frameBytes := by
      simp only [State.alongEmptyCycles]
      split <;> omega
    rw [hop, exec_check_short (s := s.alongEmptyCycles k) hl hp hcount]
    simp [State.alongEmptyCycles, emptyCyclePhase, hnext]
  · have hop : emptyCycleOp k = .flush := by simp [emptyCycleOp, hk]
    have hp : (s.alongEmptyCycles k).phase = .flush := by simp [State.alongEmptyCycles, emptyCyclePhase, hk]
    have hnext : (k + 1) % 3 = 0 ∧ ¬k + 1 < 3 := by omega
    rw [hop, exec_flush (s := s.alongEmptyCycles k) hl hp]
    simp [State.alongEmptyCycles, emptyCyclePhase, hnext, hq]

/-! ### Runs -/

theorem opsTaken_cons {c : Choice} {i : Instr} (hd : decode (signalOf s c) = .ok i)
    (h : stepWith c s = .next t) (cs : List Choice) : opsTaken (c :: cs) s = i :: opsTaken cs t := by
  simp [opsTaken, hd, h]

/-- A hold is no operation. -/
theorem opsTaken_cons_hold {c : Choice} {f : DecodeError} (hd : decode (signalOf s c) = .error f)
    (h : stepWith c s = .next t) (cs : List Choice) : opsTaken (c :: cs) s = opsTaken cs t := by
  simp [opsTaken, hd, h]

/-- From operation number `k` on, a row of turns of `SEQ` takes some number of the operations of the cycle, in
their order. -/
theorem runChoices_alongEmptyCycles (hl : s.cfg.legal = true) (hq : s.rxq = [])
    (hshort : s.rxCount < s.cfg.frameBytes) :
    ∀ (offers : List Bool) (k : Nat), ∃ n,
      runChoices (offers.map .sequencer) (s.alongEmptyCycles k) = .next (s.alongEmptyCycles (k + n)) ∧
      opsTaken (offers.map .sequencer) (s.alongEmptyCycles k) = (List.range' k n).map emptyCycleOp
  | [], k => ⟨0, rfl, rfl⟩
  | e :: offers, k => by
    rw [List.map_cons]
    cases hd : decode (signalOf (s.alongEmptyCycles k) (.sequencer e)) with
    | ok i =>
      obtain rfl := eq_emptyCycleOp_of_decodeSel hq hd
      have hstep := (stepWith_of_decode hd).trans (exec_emptyCycleOp hl hq hshort k)
      obtain ⟨n, hrun, hops⟩ := runChoices_alongEmptyCycles hl hq hshort offers (k + 1)
      refine ⟨n + 1, ?_, ?_⟩
      · rw [runChoices_cons hstep, hrun, Nat.add_assoc, Nat.add_comm 1]
      · rw [opsTaken_cons hd hstep, hops, List.range'_succ, List.map_cons]
    | error f =>
      have hstep := (stepWith_of_decode_error hd).trans (hold_eq_next.mpr ⟨hl, rfl⟩)
      obtain ⟨n, hrun, hops⟩ := runChoices_alongEmptyCycles hl hq hshort offers k
      exact ⟨n, by rw [runChoices_cons hstep, hrun], by rw [opsTaken_cons_hold hd hstep, hops]⟩

/-- A script without arrivals and resets is a row of turns of `SEQ`. -/
theorem exists_offers {cs : List Choice} (ha : arrivals cs = []) (hr : Choice.reset ∉ cs) :
    ∃ offers : List Bool, cs = offers.map .sequencer := by
  induction cs with
  | nil => exact ⟨[], rfl⟩
  | cons c cs ih =>
    obtain ⟨hc, hrest⟩ := not_or.mp (mt List.mem_cons.mpr hr)
    cases c with
    | sequencer e =>
      obtain ⟨offers, rfl⟩ := ih ha hrest
      exact ⟨e :: offers, rfl⟩
    | linkByte b => simp [arrivals, arrival] at ha
    | reset => exact absurd rfl hc

/-- Settles O54: the script is a row of turns of `SEQ`, which take the first `n` operations of the empty bad
cycles for some `n`; the number of operations taken fixes the state. -/
theorem idleStableRunsAreEmptyBadCycles : Obligations.IdleStableRunsAreEmptyBadCycles := by
  intro s cs hl ⟨⟨hp, hq⟩, ha⟩ hshort hr
  obtain ⟨offers, rfl⟩ := exists_offers ha hr
  obtain ⟨n, hrun, hops⟩ := runChoices_alongEmptyCycles hl hq hshort offers 0
  rw [State.alongEmptyCycles_zero hp, Nat.zero_add] at hrun
  rw [State.alongEmptyCycles_zero hp] at hops
  refine ⟨_, hrun, rfl, s.alongEmptyCycles_observe n, ⟨n, hops ▸ emptyCycleOps_isPrefix n⟩, fun m hm => ?_⟩
  have hn : n = 3 * m := by
    have hlen := congrArg List.length (hops.symm.trans (hm.trans (emptyBadCycles_eq m)))
    simpa using hlen
  rw [hn, State.alongEmptyCycles_whole hp]

end Sys2Proof.Machine
end

section
/-! PROOF. Fair runs (42_sequencer.md R73, R77): some operation of the sequencer always comes, and between two
resets only finitely many come before the next `FLUSH`. -/

namespace Sys2Proof.Machine

open Sys2Proof

variable {s t : State}

/-! ### The steps of a run -/

theorem State.Inv.withEnv (h : s.Inv) (cs : List Choice) : { s with env := cs }.Inv :=
  { h with memory := { h.memory with } }

theorem State.Inv.stepWith (h : s.Inv) {c : Choice} (hx : stepWith c s = .next t) : t.Inv :=
  everyStepKeepsTheInvariant _ _ (h.withEnv (c :: s.env)) hx

theorem stepWith_linkByte_next {b : Byte} (h : stepWith (.linkByte b) s = .next t) : t = rxArrive s b :=
  execLinkbyte_next ((stepWith_of_decode (i := .linkbyte b) rfl).symm.trans h)

/-- A step that is no reset is an operation of `SEQ`, an arrival, or a hold. -/
theorem stepWith_next_cases {c : Choice} (hc : c ≠ .reset) (h : stepWith c s = .next t) :
    (∃ e i, c = .sequencer e ∧ decodeSel (selWord s e) = .ok i ∧ exec i s = .next t) ∨
      (∃ b, c = .linkByte b ∧ t = rxArrive s b) ∨ t = s := by
  cases c with
  | sequencer e =>
    cases hd : decode (signalOf s (.sequencer e)) with
    | ok i => exact .inl ⟨e, i, rfl, hd, (stepWith_of_decode hd).symm.trans h⟩
    | error f => exact .inr (.inr (hold_eq_next.mp ((stepWith_of_decode_error hd).symm.trans h)).2)
  | linkByte b => exact .inr (.inl ⟨b, rfl, stepWith_linkByte_next h⟩)
  | reset => exact absurd rfl hc

/-! ### How far the next `FLUSH` is -/

/-- A bound on the operations of `SEQ` before the next `FLUSH`, along the graph of `phase` (R74): the bytes a read
still takes, two operations for each row still to be drawn, and one for each of the other phases on the way. -/
def stepsToFlush (s : State) : Nat :=
  match s.phase with
  | .flush | .reserved => 0
  | .wait | .ack => 1
  | .write => 2 * (s.cfg.height - s.y)
  | .decode => 2 * (s.cfg.height - s.y) + 1
  | .check => 2 * s.cfg.height + 2
  | .read => 2 * s.cfg.height + 3 + (s.cfg.frameBytes - s.rxCount)

/-- An arrival brings the next `FLUSH` no nearer and no further. -/
theorem stepsToFlush_rxArrive (s : State) (b : Byte) : stepsToFlush (rxArrive s b) = stepsToFlush s := rfl

/-- Every operation of `SEQ` but `FLUSH` brings the next `FLUSH` nearer. -/
theorem stepsToFlush_lt_of_exec {i : Instr} (hi : ofSequencer i = true) (hf : i ≠ .flush)
    (h : exec i s = .next t) : stepsToFlush t < stepsToFlush s := by
  cases i with
  | boot => obtain ⟨hp, rfl⟩ := execBoot_next h; simp [stepsToFlush, hp]
  | flush => exact absurd rfl hf
  | rxbyte =>
    obtain ⟨hp, b, q, -, hlt, rfl⟩ := execRxbyte_next h
    by_cases hlast : s.rxCount + 1 = s.cfg.frameBytes
    · simp [stepsToFlush, hp, hlast]
      omega
    · simp [stepsToFlush, hp, hlast]
      omega
  | rxabandon => obtain ⟨hp, -, rfl⟩ := execRxabandon_next h; simp [stepsToFlush, hp]; omega
  | check => obtain ⟨hp, rfl⟩ := execCheck_next h; split <;> simp [stepsToFlush, hp]
  | decode => obtain ⟨hp, row, -, -, -, rfl⟩ := execDecode_next h; simp [stepsToFlush, hp]
  | wrrow =>
    obtain ⟨hp, hy, row, -, -, rfl⟩ := execWrrow_next h
    by_cases hlast : s.y = s.cfg.height - 1
    · simp [stepsToFlush, hp, hlast]
      omega
    · simp [stepsToFlush, hp, hlast]
      omega
  | ack => obtain ⟨hp, rfl⟩ := execAck_next h; simp [stepsToFlush, hp]
  | linkbyte | reset => simp [ofSequencer] at hi

/-! ### Some operation always comes (R73) -/

/-- The sequencer takes the operation `i` at moment `m` of the run. -/
def TakesOp (choices : Nat → Choice) (states : Nat → State) (m : Nat) (i : Instr) : Prop :=
  ∃ e, choices m = .sequencer e ∧ decodeSel (selWord (states m) e) = .ok i

/-- From moment `n` on there is no reset. -/
def ResetFree (choices : Nat → Choice) (n : Nat) : Prop := ∀ m, n ≤ m → choices m ≠ .reset

/-- From moment `n` on the sequencer takes no operation. -/
def NoOpFrom (choices : Nat → Choice) (states : Nat → State) (n : Nat) : Prop :=
  ∀ m, n ≤ m → ∀ i, ¬TakesOp choices states m i

section

variable {choices : Nat → Choice} {states : Nat → State} {m n : Nat}

theorem IsRun.inv (hrun : IsRun choices states) (h : (states 0).Inv) : ∀ m, (states m).Inv
  | 0 => h
  | m + 1 => (hrun.inv h m).stepWith (hrun m)

/-- Where no operation is taken, the step is an arrival or nothing happens. -/
theorem IsRun.next_of_not_takesOp (hrun : IsRun choices states) (hr : choices m ≠ .reset)
    (hno : ∀ i, ¬TakesOp choices states m i) :
    (∃ b, choices m = .linkByte b ∧ states (m + 1) = rxArrive (states m) b) ∨
      states (m + 1) = states m := by
  obtain ⟨e, i, hc, hd, -⟩ | hrest := stepWith_next_cases hr (hrun m)
  · exact absurd ⟨e, hc, hd⟩ (hno i)
  · exact hrest

theorem IsRun.phase_of_noOpFrom (hrun : IsRun choices states) (hr : ResetFree choices n)
    (hno : NoOpFrom choices states n) (hm : n ≤ m) : (states m).phase = (states n).phase := by
  induction m, hm using Nat.le_induction with
  | base => rfl
  | succ m hm ih =>
    obtain ⟨b, -, hnext⟩ | hnext := hrun.next_of_not_takesOp (hr m hm) (hno m hm)
    · rw [hnext, rxArrive_phase, ih]
    · rw [hnext, ih]

/-- R8: the queue has room for a byte, so after an arrival it is not empty. -/
theorem rxArrive_rxq_ne_nil (s : State) (b : Byte) : (rxArrive s b).rxq ≠ [] := by
  rw [rxArrive_rxq]
  by_cases hq : s.rxq = []
  · simp [hq, Config.rxFifoDepth]
  · split
    · simp
    · exact hq

/-- Without an operation of the sequencer the queue loses no byte. -/
theorem IsRun.queue_of_noOpFrom (hrun : IsRun choices states) (hr : ResetFree choices n)
    (hno : NoOpFrom choices states n) (hq : (states n).rxq ≠ []) (hm : n ≤ m) : (states m).rxq ≠ [] := by
  induction m, hm using Nat.le_induction with
  | base => exact hq
  | succ m hm ih =>
    obtain ⟨b, -, hnext⟩ | hnext := hrun.next_of_not_takesOp (hr m hm) (hno m hm)
    · rw [hnext]; exact rxArrive_rxq_ne_nil _ b
    · rwa [hnext]

/-- R73 item 1: an operation that waits for no event and stays enabled is taken. -/
theorem Fair.takes_enabled (hfair : Fair choices states) {i : Instr} (hi : awaitsNoEvent i = true)
    (he : ∀ m, n ≤ m → enabled i (states m) = true) : ¬NoOpFrom choices states n := by
  intro hno
  obtain ⟨m, hm, hop⟩ := hfair.sequencer i n fun m hm => decodeSel_of_enabled hi (he m hm) false
  exact hno m hm i hop

/-- R73 item 2: a block that waits takes `BOOT`. -/
theorem Fair.takes_boot (hfair : Fair choices states) (hr : ResetFree choices n)
    (hp : (states n).phase = .wait) : ¬NoOpFrom choices states n := by
  intro hno
  obtain ⟨m, hm, hreset | ⟨hwait, hc⟩⟩ := hfair.bootDone n hp
  · exact hr m hm hreset
  · exact hno m hm .boot ⟨true, hc, (selectWordNamesTheEnabledOperation _ _ _).mpr (.inl ⟨rfl, hwait, rfl⟩)⟩

/-- R73 items 1 and 3: a read takes a byte that is or comes into the queue, and is abandoned where none comes. -/
theorem Fair.takes_read (hfair : Fair choices states) (hrun : IsRun choices states) (hr : ResetFree choices n)
    (hp : (states n).phase = .read) : ¬NoOpFrom choices states n := by
  intro hno
  have hread (m : Nat) (hm : n ≤ m) : (states m).phase = .read := (hrun.phase_of_noOpFrom hr hno hm).trans hp
  by_cases hbyte : ∃ m, n ≤ m ∧ (states m).rxq ≠ []
  · obtain ⟨m, hm, hq⟩ := hbyte
    have hno' : NoOpFrom choices states m := fun k hk => hno k (hm.trans hk)
    have hr' : ResetFree choices m := fun k hk => hr k (hm.trans hk)
    exact hfair.takes_enabled (i := .rxbyte) rfl
      (fun k hk => enabled_rxbyte (hread k (hm.trans hk)) (hrun.queue_of_noOpFrom hr' hno' hq hk)) hno'
  · have hempty (m : Nat) (hm : n ≤ m) : (states m).rxq = [] := by
      by_contra hq
      exact hbyte ⟨m, hm, hq⟩
    have hquiet (m : Nat) (hm : n ≤ m) (b : Byte) : choices m ≠ .linkByte b := by
      intro hc
      have hnext : states (m + 1) = rxArrive (states m) b := stepWith_linkByte_next (hc ▸ hrun m)
      exact rxArrive_rxq_ne_nil _ b (hnext ▸ hempty (m + 1) (by omega))
    obtain ⟨m, hm, hc⟩ := hfair.gap n fun m hm => ⟨⟨hread m hm, hempty m hm⟩, hquiet m hm⟩
    exact hno m hm .rxabandon ⟨true, hc,
      (selectWordNamesTheEnabledOperation _ _ _).mpr (by simp [hread m hm, hempty m hm])⟩

/-- R73, R77: whatever phase the block is in, an operation comes. -/
theorem Fair.takes_op (hfair : Fair choices states) (hrun : IsRun choices states) (hinv : (states n).Inv)
    (hr : ResetFree choices n) : ∃ m, n ≤ m ∧ ∃ i, TakesOp choices states m i := by
  by_contra hnone
  have hno : NoOpFrom choices states n := fun m hm i hop => hnone ⟨m, hm, i, hop⟩
  have hphase (m : Nat) (hm : n ≤ m) : (states m).phase = (states n).phase := hrun.phase_of_noOpFrom hr hno hm
  cases hp : (states n).phase with
  | wait => exact hfair.takes_boot hr hp hno
  | flush => exact hfair.takes_enabled (i := .flush) rfl (fun m hm => by simp [enabled, hphase m hm, hp]) hno
  | read => exact hfair.takes_read hrun hr hp hno
  | check => exact hfair.takes_enabled (i := .check) rfl (fun m hm => by simp [enabled, hphase m hm, hp]) hno
  | decode => exact hfair.takes_enabled (i := .decode) rfl (fun m hm => by simp [enabled, hphase m hm, hp]) hno
  | write => exact hfair.takes_enabled (i := .wrrow) rfl (fun m hm => by simp [enabled, hphase m hm, hp]) hno
  | ack => exact hfair.takes_enabled (i := .ack) rfl (fun m hm => by simp [enabled, hphase m hm, hp]) hno
  | reserved => exact hinv.phaseNamed hp

/-! ### The next `FLUSH` (R77) -/

theorem ofSequencer_of_decodeSel {e : Bool} {i : Instr} (h : decodeSel (selWord s e) = .ok i) :
    ofSequencer i = true := by
  have hrow := (selectWordNamesTheEnabledOperation s e i).mp h
  cases i with
  | linkbyte | reset => simp at hrow
  | boot | flush | rxbyte | rxabandon | check | decode | wrrow | ack => rfl

/-- An operation that is not `FLUSH` brings the next `FLUSH` nearer. -/
theorem IsRun.stepsToFlush_lt (hrun : IsRun choices states) {i : Instr} (hop : TakesOp choices states m i)
    (hf : i ≠ .flush) : stepsToFlush (states (m + 1)) < stepsToFlush (states m) := by
  obtain ⟨e, hc, hd⟩ := hop
  have hx : exec i (states m) = .next (states (m + 1)) :=
    (stepWith_of_decode (c := .sequencer e) hd).symm.trans (hc ▸ hrun m)
  exact stepsToFlush_lt_of_exec (ofSequencer_of_decodeSel hd) hf hx

/-- While no `FLUSH` comes, the next one is never further away. -/
theorem IsRun.stepsToFlush_le (hrun : IsRun choices states) (hr : ResetFree choices n)
    (hf : ∀ m, n ≤ m → ¬TakesOp choices states m .flush) (hm : n ≤ m) :
    stepsToFlush (states m) ≤ stepsToFlush (states n) := by
  induction m, hm using Nat.le_induction with
  | base => exact le_rfl
  | succ m hm ih =>
    refine le_trans ?_ ih
    by_cases hop : ∃ i, TakesOp choices states m i
    · obtain ⟨i, hop⟩ := hop
      exact (hrun.stepsToFlush_lt hop (by rintro rfl; exact hf m hm hop)).le
    · obtain ⟨b, -, hnext⟩ | hnext := hrun.next_of_not_takesOp (hr m hm) (not_exists.mp hop)
      · rw [hnext, stepsToFlush_rxArrive]
      · rw [hnext]

/-- Operations keep coming, and each that is not `FLUSH` uses up one of the operations before it. -/
theorem Fair.takes_flush (hfair : Fair choices states) (hrun : IsRun choices states)
    (hinv : ∀ m, (states m).Inv) (hr : ResetFree choices n) :
    ∃ m, n ≤ m ∧ TakesOp choices states m .flush := by
  induction hk : stepsToFlush (states n) using Nat.strong_induction_on generalizing n with
  | h k ih =>
    by_contra hnone
    have hf (m : Nat) (hm : n ≤ m) : ¬TakesOp choices states m .flush := fun hop => hnone ⟨m, hm, hop⟩
    obtain ⟨m, hm, i, hop⟩ := hfair.takes_op hrun (hinv n) hr
    have hlt : stepsToFlush (states (m + 1)) < k := calc
      stepsToFlush (states (m + 1)) < stepsToFlush (states m) :=
        hrun.stepsToFlush_lt hop (by rintro rfl; exact hf m hm hop)
      _ ≤ stepsToFlush (states n) := hrun.stepsToFlush_le hr hf hm
      _ = k := hk
    obtain ⟨m', hm', hflush⟩ := ih _ hlt (n := m + 1) (fun j hj => hr j (by omega)) rfl
    exact hf m' (by omega) hflush

end

/-- Settles O56: a fair run takes a `FLUSH` after any moment with no reset to come, and a `FLUSH` is a turn of
`SEQ` in `phase = FLUSH`. -/
theorem fairRunsFlushForEver : Obligations.FairRunsFlushForEver := by
  intro choices states hrun hfair h0 n hr
  obtain ⟨m, hm, e, hc, hd⟩ := hfair.takes_flush hrun (hrun.inv h0) hr
  have hp : (states m).phase = .flush := by
    simpa using (selectWordNamesTheEnabledOperation _ _ _).mp hd
  exact ⟨m, hm, hp, e, hc⟩

end Sys2Proof.Machine
end

section
/-! PROOF. An arrival that coincides with a step of the sequencer (60_exceptions.md R85, 70_reset_and_hazards.md
R95): what each of the two orders gives. -/

namespace Sys2Proof.Machine

open Sys2Proof

variable {s : State}

/-- R54: an empty queue has room, since its depth is at least 1 (00_scope.md R8). -/
theorem exec_linkbyte_empty (hl : s.cfg.legal = true) (hq : s.rxq = []) (b : Byte) :
    exec (.linkbyte b) s = .next (s.setRxq [b]) := by
  have hroom : s.rxq.length < s.cfg.rxFifoDepth := by simp [hq, Config.rxFifoDepth]
  rw [exec_linkbyte hl, rxArrive_room hroom, hq, List.nil_append]

/-! ### An arrival and a `FLUSH` -/

theorem exec_flush_discards_arrival (hl : s.cfg.legal = true) (hp : s.phase = .flush) (b : Byte) :
    ∃ t u, exec (.linkbyte b) s = .next t ∧ exec .flush t = .next u ∧ u.rxq = [] :=
  ⟨_, _, exec_linkbyte hl b, exec_flush hl hp, rfl⟩

theorem exec_linkbyte_kept_after_flush (hl : s.cfg.legal = true) (hp : s.phase = .flush) (b : Byte) :
    ∃ t u, exec .flush s = .next t ∧ exec (.linkbyte b) t = .next u ∧ u.rxq = [b] :=
  ⟨_, _, exec_flush hl hp,
    exec_linkbyte_empty (s := { s with rxq := [], rxCount := 0, phase := .read }) hl rfl b, rfl⟩

/-! ### An arrival and a `GAP` -/

/-- The queue is not empty after an arrival, so the read goes on. -/
theorem exec_linkbyte_forbids_rxabandon (hl : s.cfg.legal = true) (hp : s.phase = .read) (b : Byte) :
    ∃ t, exec (.linkbyte b) s = .next t ∧ enabled .rxabandon t = false ∧ enabled .rxbyte t = true := by
  have hne : (rxArrive s b).rxq ≠ [] := rxArrive_rxq_ne_nil s b
  refine ⟨_, exec_linkbyte hl b, ?_, enabled_rxbyte hp hne⟩
  simp [enabled, queueHasByte_iff.mpr hne]

/-- R58, R61: the `CHECK` of a short count leaves the queue to the `FLUSH` of the next cycle. -/
theorem exec_check_short_then_flush (hl : s.cfg.legal = true) (hp : s.phase = .check)
    (hshort : s.rxCount ≠ s.cfg.frameBytes) :
    ∃ v w, exec .check s = .next v ∧ v.rxq = s.rxq ∧ exec .flush v = .next w ∧ w.rxq = [] :=
  ⟨_, _, exec_check_short hl hp hshort, rfl, exec_flush hl rfl, rfl⟩

theorem exec_rxabandon_then_linkbyte (hl : s.cfg.legal = true) (hp : s.phase = .read) (hq : s.rxq = [])
    (b : Byte) : ∃ t u, exec .rxabandon s = .next t ∧ exec (.linkbyte b) t = .next u ∧
      u.phase = .check ∧ u.rxq = [b] ∧
      (s.rxCount ≠ s.cfg.frameBytes →
        ∃ v w, exec .check u = .next v ∧ v.rxq = [b] ∧ exec .flush v = .next w ∧ w.rxq = []) :=
  ⟨_, _, exec_rxabandon hl hp hq, exec_linkbyte_empty (s := { s with phase := .check }) hl hq b, rfl, rfl,
    exec_check_short_then_flush (s := { s with phase := .check, rxq := [b] }) hl rfl⟩

/-! ### An arrival and an `RXBYTE` -/

theorem exec_linkbyte_readTo {q : List Byte} (hl : s.cfg.legal = true) (hroom : q.length < s.cfg.rxFifoDepth)
    (m : List Host.Cell) (n : Nat) (cs : List Choice) (b : Byte) :
    exec (.linkbyte b) (s.readTo m n q cs) = .next (s.readTo m n (q ++ [b]) cs) :=
  (exec_linkbyte (s := s.readTo m n q cs) hl b).trans (congrArg _ (rxArrive_room hroom))

/-- The arrival works on the tail of the queue and `RXBYTE` on its head, the frame buffer and the count. -/
theorem exec_linkbyte_rxbyte_comm (hl : s.cfg.legal = true) (hp : s.phase = .read) (hq : s.rxq ≠ [])
    (hroom : s.rxq.length < s.cfg.rxFifoDepth) (hlt : s.rxCount < s.cfg.frameBytes) (b : Byte) :
    ∃ t u v, exec (.linkbyte b) s = .next t ∧ exec .rxbyte s = .next u ∧
      exec .rxbyte t = .next v ∧ exec (.linkbyte b) u = .next v := by
  obtain ⟨head, tail, hcons⟩ := List.exists_cons_of_ne_nil hq
  have htail : tail.length < s.cfg.rxFifoDepth := by
    rw [hcons, List.length_cons] at hroom
    exact Nat.lt_of_succ_lt hroom
  have harrive : exec (.linkbyte b) s = .next (s.setRxq (head :: (tail ++ [b]))) := by
    rw [exec_linkbyte hl, rxArrive_room hroom, hcons, List.cons_append]
  exact ⟨_, _, _, harrive, exec_rxbyte hl hp hcons hlt,
    exec_rxbyte (s := s.setRxq (head :: (tail ++ [b]))) hl hp rfl hlt, exec_linkbyte_readTo hl htail _ _ _ b⟩

/-- Settles O40: each coincidence by the next states of its two orders. -/
theorem arrivalRacesHaveTwoOutcomes : Obligations.ArrivalRacesHaveTwoOutcomes :=
  fun _ b hl =>
    ⟨fun hp => ⟨exec_flush_discards_arrival hl hp b, exec_linkbyte_kept_after_flush hl hp b⟩,
      fun hp hq => ⟨exec_linkbyte_forbids_rxabandon hl hp b, exec_rxabandon_then_linkbyte hl hp hq b⟩,
      fun hp hq hroom hlt => exec_linkbyte_rxbyte_comm hl hp hq hroom hlt b⟩

end Sys2Proof.Machine
end

section
/-! PROOF. The reset (70_reset_and_hazards.md R91, R92): what it leaves, and the way from it to the first read
under the eager schedule (42_sequencer.md R75). -/

namespace Sys2Proof.Machine

open Sys2Proof

variable {s t : State}

/-- Settles O18: `RESET` has no enabling condition, and its next state is the reset state with the parameters and
the environment's choices kept. -/
theorem resetRestartsTheBlock : Obligations.ResetRestartsTheBlock :=
  fun _ hl => whenEnabled_of_enabled hl rfl _

/-! ### The eager schedule (R75) -/

theorem seqReady_iff : seqReady s = true ↔ ∃ i, decodeSel (selWord s false) = .ok i := by
  rw [seqReady, signalOf, decode]
  cases decodeSel (selWord s false) <;> simp [Except.toOption]

/-- Waiting and a read with nothing buffered are left by an event of the environment only. -/
theorem seqReady_eq_false (h : s.waiting ∨ s.idle) : seqReady s = false := by
  refine Bool.eq_false_iff.mpr fun hready => ?_
  obtain ⟨i, hi⟩ := seqReady_iff.mp hready
  have hop := (selectWordNamesTheEnabledOperation s false i).mp hi
  obtain hp | ⟨hp, hq⟩ := h
  · simp [hp] at hop
  · simp [hp, hq] at hop

theorem settle_of_not_ready (h : seqReady s = false) : ∀ fuel, settle fuel s = .next s
  | 0 => rfl
  | fuel + 1 => by simp [settle, h]

/-- The eager schedule takes an operation that waits for no event. -/
theorem settle_succ {i : Instr} (hi : awaitsNoEvent i = true) (hx : exec i s = .next t) (fuel : Nat) :
    settle (fuel + 1) s = settle fuel t := by
  have hd : decodeSel (selWord s false) = .ok i := decodeSel_of_enabled hi (enabled_of_exec_next hx) false
  have hstep : stepWith (.sequencer false) s = .next t := (stepWith_of_decode (c := .sequencer false) hd).trans hx
  simp [settle, seqReady_iff.mpr ⟨i, hd⟩, hstep]

/-- R70: `BOOTDONE` in Waiting is `BOOT`. -/
theorem perform_bootDone (hl : s.cfg.legal = true) (hp : s.waiting) :
    perform .bootDone s = .next { s with phase := .flush } := by
  have hd : decodeSel (selWord s true) = .ok .boot :=
    (selectWordNamesTheEnabledOperation s true .boot).mpr (.inl ⟨rfl, hp, rfl⟩)
  have he : enabled .boot s = true := enabled_of_decodeSel hd
  rw [perform, if_pos he, stepWith_of_decode (c := .sequencer true) hd, exec_boot hl hp]

theorem runScript_cons {u : State} {i : ScriptItem} (hs : settle (settleFuel s.cfg) s = .next t)
    (hp : perform i t = .next u) (is : List ScriptItem) : runScript (i :: is) s = runScript is u := by
  simp [runScript, hs, hp]

/-- Settles O52: the block waits until `BOOTDONE`, and then takes `FLUSH`, which leaves it idle. -/
theorem bootScriptStartsTheFirstRead : Obligations.BootScriptStartsTheFirstRead := by
  intro c hl
  have hwait : settle (settleFuel c) (State.resetOf c) = .next (State.resetOf c) :=
    settle_of_not_ready (seqReady_eq_false (.inl rfl)) _
  have hboot : perform .bootDone (State.resetOf c) = .next { State.resetOf c with phase := .flush } :=
    perform_bootDone hl rfl
  have hflush : exec .flush { State.resetOf c with phase := .flush } =
      .next { State.resetOf c with phase := .read } := exec_flush hl rfl
  rw [runScript_cons hwait hboot]
  exact (settle_succ rfl hflush _).trans (settle_of_not_ready (seqReady_eq_false (.inr ⟨rfl, rfl⟩)) _)

end Sys2Proof.Machine
end

section
/-! PROOF. A frame sent to an idle block, one turn of `SEQ` after each byte (70_reset_and_hazards.md R102,
40_receiver.md R60). -/

namespace Sys2Proof.Machine

open Sys2Proof

variable {s t : State}

/-! ### The read of a frame as its bytes arrive -/

/-- The bytes `bs`, each followed by a turn of `SEQ`. -/
def byteTurns (bs : List Byte) : List Choice := bs.flatMap fun b => [.linkByte b, .sequencer false]

/-- R54: a byte that arrives in a read with nothing buffered. -/
theorem step_readTo_arrival (hl : s.cfg.legal = true) (m : List Host.Cell) (n : Nat) (b : Byte)
    (cs : List Choice) :
    step (s.readTo m n [] (.linkByte b :: cs)) = .next (s.readTo m n [b] cs) := by
  have hx : exec (.linkbyte b) (s.readTo m n [] cs) = .next (s.readTo m n [b] cs) :=
    exec_linkbyte_readTo (q := []) hl (Nat.succ_pos s.cfg.rxFifoExtra) m n cs b
  rw [step_of_fetch (fetch_linkByte (nextChoice_cons _ _ cs rfl)), takeChoice_cons _ _ cs rfl]
  exact hx

/-- A read takes bytes that come one by one as it takes them when they are all buffered. -/
theorem runSteps_byteTurns (hl : s.cfg.legal = true) (cs : List Choice) :
    ∀ (bs : List Byte) (m : List Host.Cell) (n : Nat), n + bs.length ≤ s.cfg.frameBytes →
      runSteps (2 * bs.length) (s.readTo m n [] (byteTurns bs ++ cs)) =
        runTrace (List.replicate bs.length .rxbyte) (s.readTo m n bs cs)
  | [], _, _, _ => rfl
  | b :: bs, m, n, hroom => by
    rw [List.length_cons] at hroom
    have hn : n < s.cfg.frameBytes := by omega
    have harrive : step (s.readTo m n [] (byteTurns (b :: bs) ++ cs)) =
        .next (s.readTo m n [b] (.sequencer false :: (byteTurns bs ++ cs))) :=
      step_readTo_arrival hl m n b _
    have hbuffered : exec .rxbyte (s.readTo m n (b :: bs) cs) =
        .next (s.readTo (Memory.write m n b) (n + 1) bs cs) :=
      exec_rxbyte hl (if_neg (Nat.ne_of_lt hn)) rfl hn
    rw [List.length_cons, Nat.mul_succ, runSteps_succ harrive, runSteps_succ (step_readTo hl hn),
      List.replicate_succ, runTrace_cons hbuffered]
    exact runSteps_byteTurns hl cs bs (Memory.write m n b) (n + 1) (by omega)

/-- The bytes of a frame come one by one to an idle block. -/
theorem runSteps_byteTurns_idle {F : List Byte} {cs : List Choice} (hl : s.cfg.legal = true) (hidle : s.idle)
    (hcount : s.rxCount = 0) (hF : F.length ≤ s.cfg.frameBytes) (henv : s.env = byteTurns F ++ cs) :
    runSteps (2 * F.length) s = runTrace (List.replicate F.length .rxbyte) { s with rxq := F, env := cs } := by
  obtain ⟨hp, hq⟩ := hidle
  have hread : readPhase s.cfg 0 = .read := if_neg (Nat.ne_of_lt (frameBytes_pos hl))
  have hrun := runSteps_byteTurns hl cs F s.fb 0 (by rwa [Nat.zero_add])
  simp only [State.readTo, hread] at hrun
  rwa [← hp, ← hcount, ← hq, ← henv] at hrun

/-! ### A good cycle from one idle state to the next -/

/-- The operations of a good cycle from the complete read of the frame to the next read. -/
def afterRead (c : Config) : List Instr := .check :: (renderTrace c ++ [.ack, .flush])

theorem afterRead_length (c : Config) : (afterRead c).length = 2 * c.height + 3 := by
  simp [afterRead, renderTrace_length]

theorem awaitsNoEvent_of_mem_afterRead {c : Config} {i : Instr} (h : i ∈ afterRead c) :
    awaitsNoEvent i = true := by
  simp only [afterRead, List.mem_cons, List.mem_append, List.not_mem_nil, or_false] at h
  obtain rfl | h | rfl | rfl := h
  · rfl
  · exact awaitsNoEvent_of_mem_renderTrace h
  · rfl
  · rfl

/-- A good cycle with the frame buffered, and the `FLUSH` after it, receive the frame. -/
theorem runTrace_receivedFrame {F : List Byte} (hl : s.cfg.legal = true) (hp : s.phase = .read)
    (hcount : s.rxCount = 0) (hq : s.rxq = F) (hF : F.length = s.cfg.frameBytes) :
    ∃ u t, runTrace (List.replicate F.length .rxbyte) s = .next u ∧ u.env = s.env ∧
      runTrace (afterRead s.cfg) u = .next t ∧ ReceivedFrame s F t := by
  obtain ⟨_, hread, -⟩ := runTrace_read hl hp hcount hq hF.le
  obtain ⟨m, sl, surf, log, hcycle, hm, hshows, hlog⟩ := runTrace_goodCycle hl hp hcount hq hF
  have hflush := runTrace_append hcycle [.flush]
  have hops : (goodCycle s.cfg).tail ++ [.flush] =
      List.replicate F.length .rxbyte ++ afterRead s.cfg := by
    simp [goodCycle, afterRead, hF]
  rw [hops, runTrace_append hread] at hflush
  have hend := hflush.trans (runTrace_cons (exec_flush (by exact hl) rfl) [])
  exact ⟨_, _, hread, rfl, hend, rfl, ⟨rfl, rfl⟩, rfl, fun k hk => (hm k).trans (if_pos (hF ▸ hk)),
    hshows, ⟨log, rfl, hlog⟩, rfl⟩

/-- None of these operations waits for an event, so as many turns of `SEQ` take them. -/
theorem runSteps_afterRead {c : Config} {rest : List Choice} (h : runTrace (afterRead c) s = .next t)
    (henv : s.env = (List.replicate (2 * c.height + 3) false).map .sequencer ++ rest) :
    runSteps (2 * c.height + 3) s = .next { t with env := rest } := by
  have hrun := runSteps_of_runTrace (rest := rest) (fun _ => awaitsNoEvent_of_mem_afterRead) h
    (offers := List.replicate (2 * c.height + 3) false) (by simp [afterRead_length])
  rwa [← henv, afterRead_length] at hrun

/-- R21: the invariant holds along every run. -/
theorem State.Inv.runSteps {n : Nat} (h : s.Inv) (hrun : runSteps n s = .next t) : t.Inv := by
  induction n generalizing s with
  | zero => cases hrun; exact h
  | succ n ih =>
    obtain ⟨u, hu⟩ := invariantStatesNeverStop s h
    rw [runSteps_succ hu] at hrun
    exact ih (everyStepKeepsTheInvariant s u h hu) hrun

/-- Settles O50: the read takes the bytes as if they were buffered, and the turns after it are the rest of a good
cycle and the `FLUSH` of the next. -/
theorem oneFrameIsOneGoodCycle : Obligations.OneFrameIsOneGoodCycle := by
  intro s F rest hinv hidle hcount hF henv
  have hl : s.cfg.legal = true := hinv.configLegal
  rw [← List.map_replicate] at henv
  obtain ⟨u, t, hread, huenv, hcycle, hreceived⟩ := runTrace_receivedFrame
    (s := { s with rxq := F, env := (List.replicate (2 * s.cfg.height + 3) false).map .sequencer ++ rest })
    hl hidle.1 hcount rfl hF
  rw [← runSteps_byteTurns_idle hl hidle hcount hF.le henv] at hread
  have hrun := (runSteps_add hread).trans (runSteps_afterRead hcycle huenv)
  exact ⟨_, hrun, { hreceived with }, hinv.runSteps hrun, rfl⟩

end Sys2Proof.Machine
end

section
/-! PROOF. A frame sent under the premises S2 to S5 (70_reset_and_hazards.md R102): the four stages it goes through,
each with the step that keeps it or leads to the next. -/

namespace Sys2Proof.Machine

open Sys2Proof

variable {s t u : State} {F : List Byte}

/-! ### The premises at one choice -/

theorem premisesAt_linkByte {n : Nat} {b : Byte} (h : premisesAt n u (.linkByte b) = true) :
    u.phase = .read ∧ u.rxq.length < u.cfg.rxFifoDepth ∧ n < u.cfg.frameBytes := by
  simpa [premisesAt, rxAvail, Nat.blt_eq, and_assoc] using h

/-- S3: `RXABANDON` comes before the first byte of the frame or after the last. -/
theorem premisesAt_rxabandon {n : Nat} (he : enabled .rxabandon u = true)
    (h : premisesAt n u (.sequencer true) = true) : n = 0 ∨ n = u.cfg.frameBytes := by
  simpa [premisesAt, he] using h

theorem ne_reset_of_premisesAt {n : Nat} {c : Choice} (h : premisesAt n u c = true) : c ≠ .reset := by
  rintro rfl
  simp [premisesAt] at h

/-- S4: once the frame has arrived, every step is a turn of `SEQ`. -/
theorem eq_sequencer_of_premisesAt {n : Nat} {c : Choice} (h : premisesAt n u c = true)
    (hfull : n = u.cfg.frameBytes) : ∃ e, c = .sequencer e := by
  cases c with
  | sequencer e => exact ⟨e, rfl⟩
  | linkByte b =>
    obtain ⟨-, -, hlt⟩ := premisesAt_linkByte h
    exact absurd hfull (Nat.ne_of_lt hlt)
  | reset => exact absurd rfl (ne_reset_of_premisesAt h)

/-! ### The stages -/

/-- Between two frames the block goes round the empty bad cycle: nothing is buffered, and a `FLUSH` is next or no
byte has been taken since the last one (42_sequencer.md R76). -/
structure State.BetweenFrames (u : State) : Prop where
  queue : u.rxq = []
  place : u.phase = .flush ∨ (u.phase = .read ∨ u.phase = .check) ∧ u.rxCount = 0

/-- Stage 1: since `s` no byte has arrived. -/
structure BeforeFrame (s u : State) : Prop where
  between : u.BetweenFrames
  count : u.rxCount = 0
  observe : u.observe = s.observe

/-- Stage 2: the bytes `F` have arrived in one read, which has taken some of them, and the others are buffered. -/
structure ReadingFrame (s : State) (F : List Byte) (u : State) : Prop where
  phase : u.phase = .read
  room : F.length ≤ u.cfg.frameBytes
  count : u.rxCount ≤ F.length
  taken : ∀ k < u.rxCount, Memory.read u.fb k = F[k]?
  queue : u.rxq = F.drop u.rxCount
  observe : u.observe = s.observe

/-- Stage 3: the whole frame `F` is in `FB`, and is about to be drawn, is drawn row by row, or is drawn. -/
structure DrawingFrame (s : State) (F : List Byte) (u : State) : Prop where
  place : u.phase = .check ∨ u.drawing = true
  length : F.length = u.cfg.frameBytes
  count : u.rxCount = u.cfg.frameBytes
  queue : u.rxq = []
  fb : ∀ k < u.cfg.frameBytes, Memory.read u.fb k = F[k]?
  rows : ∃ log, u.displog = s.displog ++ log ∧ IsRenderLog u.cfg u.fb u.rowsDrawn log
  txlog : u.txlog = s.txlog

/-- Stage 4: the frame has been acknowledged; but for the phase and the count, of which the block has those of the
empty bad cycle, it has been received. -/
structure AcknowledgedFrame (s : State) (F : List Byte) (u : State) : Prop where
  between : u.BetweenFrames
  length : F.length = u.cfg.frameBytes
  received : ReceivedFrame s F { u with phase := .read, rxCount := 0 }

/-! ### The empty bad cycle -/

/-- An operation of the empty bad cycle changes the phase and the count only, and clears the count if anything. -/
theorem State.BetweenFrames.exec (h : u.BetweenFrames) (hl : u.cfg.legal = true) {e : Bool} {i : Instr}
    (hd : decodeSel (selWord u e) = .ok i) (hx : exec i u = .next t) :
    t.BetweenFrames ∧ t = { u with phase := t.phase, rxCount := t.rxCount } ∧ t.rxCount ≤ u.rxCount := by
  have hop := (selectWordNamesTheEnabledOperation u e i).mp hd
  obtain ⟨hq, hp | ⟨hp | hp, hcount⟩⟩ := h
  · obtain rfl : i = .flush := by simpa [hp] using hop
    cases (exec_flush hl hp).symm.trans hx
    exact ⟨⟨rfl, .inr ⟨.inl rfl, rfl⟩⟩, by simp [hq], Nat.zero_le _⟩
  · obtain ⟨rfl, -⟩ : i = .rxabandon ∧ e = true := by simpa [hp, hq] using hop
    cases (exec_rxabandon hl hp hq).symm.trans hx
    exact ⟨⟨hq, .inr ⟨.inr rfl, hcount⟩⟩, rfl, le_rfl⟩
  · obtain rfl : i = .check := by simpa [hp] using hop
    have hshort : u.rxCount ≠ u.cfg.frameBytes := hcount ▸ Nat.ne_of_lt (frameBytes_pos hl)
    cases (exec_check_short hl hp hshort).symm.trans hx
    exact ⟨⟨hq, .inl rfl⟩, rfl, le_rfl⟩

theorem BeforeFrame.exec (h : BeforeFrame s u) (hl : u.cfg.legal = true) {e : Bool} {i : Instr}
    (hd : decodeSel (selWord u e) = .ok i) (hx : exec i u = .next t) : BeforeFrame s t := by
  obtain ⟨hbetween, ht, hle⟩ := h.between.exec hl hd hx
  have hobserve : t.observe = u.observe := by rw [ht]; rfl
  exact ⟨hbetween, Nat.le_zero.mp (h.count ▸ hle), hobserve.trans h.observe⟩

/-- After the acknowledgement nothing that can be observed changes (R76). -/
theorem AcknowledgedFrame.exec (h : AcknowledgedFrame s F u) (hl : u.cfg.legal = true) {e : Bool} {i : Instr}
    (hd : decodeSel (selWord u e) = .ok i) (hx : exec i u = .next t) :
    AcknowledgedFrame s F t ∧ t.observe = u.observe := by
  obtain ⟨hbetween, ht, -⟩ := h.between.exec hl hd hx
  have hreceived : ReceivedFrame s F { t with phase := .read, rxCount := 0 } := by
    rw [ht]; exact h.received
  exact ⟨⟨hbetween, by rw [ht]; exact h.length, hreceived⟩, by rw [ht]; rfl⟩

/-- Where an acknowledged block is idle, the frame has been received. -/
theorem AcknowledgedFrame.receivedFrame (h : AcknowledgedFrame s F u) (hp : u.phase = .read) :
    ReceivedFrame s F u := by
  have hcount : u.rxCount = 0 := by simpa [hp] using h.between.place
  have hreceived := h.received
  rwa [← hp, ← hcount] at hreceived

/-! ### The read -/

/-- An idle block is in a read that no byte has arrived in. -/
theorem BeforeFrame.reading (h : BeforeFrame s u) (hp : u.phase = .read) : ReadingFrame s [] u where
  phase := hp
  room := Nat.zero_le _
  count := h.count.le
  taken := by simp [h.count]
  queue := by simp [h.between.queue]
  observe := h.observe

/-- S2, S4, S5: a byte that arrives is the next of the frame and is buffered. -/
theorem ReadingFrame.arrival (h : ReadingFrame s F u) {b : Byte}
    (hprem : premisesAt F.length u (.linkByte b) = true) : ReadingFrame s (F ++ [b]) (rxArrive u b) := by
  obtain ⟨-, hroom, hlt⟩ := premisesAt_linkByte hprem
  have hcount := h.count
  rw [rxArrive_room hroom]
  exact
    { phase := h.phase
      room := by simpa using hlt
      count := by simpa using Nat.le_succ_of_le hcount
      taken := fun k hk => by
        have hk' : k < F.length := Nat.lt_of_lt_of_le hk hcount
        rw [List.getElem?_append_left hk']
        exact h.taken k hk
      queue := by simp [h.queue, List.drop_append_of_le_length hcount]
      observe := h.observe }

/-- S3: while bytes of the frame are missing or buffered, the sequencer has no operation but `RXBYTE`. -/
theorem ReadingFrame.eq_rxbyte (h : ReadingFrame s F u) (hinv : u.Inv) (hF : F ≠ []) {e : Bool} {i : Instr}
    (hprem : premisesAt F.length u (.sequencer e) = true) (hd : decodeSel (selWord u e) = .ok i) :
    i = .rxbyte := by
  have hop := (selectWordNamesTheEnabledOperation u e i).mp hd
  obtain ⟨rfl, -⟩ | ⟨rfl, hq, rfl⟩ : i = .rxbyte ∧ 1 ≤ u.rxq.length ∨ i = .rxabandon ∧ u.rxq = [] ∧ e = true := by
    simpa [h.phase] using hop
  · rfl
  · have hall : F.length ≤ u.rxCount := List.drop_eq_nil_iff.mp (h.queue.symm.trans hq)
    have hshort : u.rxCount < u.cfg.frameBytes := hinv.countShort h.phase
    obtain hnone | hfull := premisesAt_rxabandon (enabled_of_decodeSel hd) hprem
    · exact absurd (List.length_eq_zero_iff.mp hnone) hF
    · omega

/-- The oldest byte buffered is the next of the frame. -/
theorem ReadingFrame.next_byte (h : ReadingFrame s F u) {b : Byte} {q : List Byte} (hq : u.rxq = b :: q) :
    F[u.rxCount]? = some b ∧ q = F.drop (u.rxCount + 1) := by
  have hdrop : F.drop u.rxCount = b :: q := h.queue.symm.trans hq
  rw [← List.head?_drop, ← List.tail_drop, hdrop]
  exact ⟨rfl, rfl⟩

/-- The next byte of the frame goes to the next index. -/
theorem ReadingFrame.taken_write (h : ReadingFrame s F u) {b : Byte} (hb : F[u.rxCount]? = some b) :
    ∀ k < u.rxCount + 1, Memory.read (Memory.write u.fb u.rxCount b) k = F[k]? := by
  intro k hk
  rw [Memory.read_write]
  split
  · next hlast => rw [hlast, hb]
  · exact h.taken k (by omega)

/-- R56: `RXBYTE` takes the next byte of the frame, and the last of them ends the read. -/
theorem ReadingFrame.exec_rxbyte (h : ReadingFrame s F u) (hx : exec .rxbyte u = .next t) :
    ReadingFrame s F t ∨ DrawingFrame s F t := by
  have hobserve : t.observe = s.observe :=
    (onlyThreeStepsAreObservable _ _ _ hx (by simp) (by simp) (by simp)).1.trans h.observe
  obtain ⟨-, b, q, hq, -, rfl⟩ := execRxbyte_next hx
  obtain ⟨hb, rfl⟩ := h.next_byte hq
  have hnext : u.rxCount < F.length := (List.getElem?_eq_some_iff.mp hb).1
  have htaken := h.taken_write hb
  have hroom := h.room
  by_cases hlast : u.rxCount + 1 = u.cfg.frameBytes
  · have hlen : F.length = u.cfg.frameBytes := by omega
    exact .inr
      { place := .inl (by simp [hlast])
        length := by simpa using hlen
        count := by simpa using hlast
        queue := by simp [hlast, hlen]
        fb := by simpa [← hlast] using htaken
        rows := ⟨[], (congrArg Observation.displog hobserve).trans (List.append_nil _).symm,
          by simp [State.rowsDrawn, hlast], by simp [State.rowsDrawn, hlast]⟩
        txlog := congrArg Observation.txlog hobserve }
  · exact .inl
      { phase := by simp [hlast, h.phase]
        room := by simpa using hroom
        count := by simpa using hnext
        taken := by simpa using htaken
        queue := by simp
        observe := hobserve }

/-! ### The render and the acknowledgement -/

@[simp] theorem State.withRow_rxCount (u : State) (row : List Color) : (u.withRow row).rxCount = u.rxCount := rfl
@[simp] theorem State.withRow_fb (u : State) (row : List Color) : (u.withRow row).fb = u.fb := rfl
@[simp] theorem State.withRow_rxq (u : State) (row : List Color) : (u.withRow row).rxq = u.rxq := rfl

/-- R65: `WRROW` draws one more row. -/
theorem rowsDrawn_nextRow (hy : u.y < u.cfg.height) : (nextRow u).rowsDrawn = u.y + 1 := by
  by_cases hlast : u.y = u.cfg.height - 1
  · simp only [State.rowsDrawn, nextRow_phase, hlast, if_true, nextRow_cfg]
    omega
  · simp [State.rowsDrawn, hlast]

theorem nextRow_drawing (u : State) : (nextRow u).drawing = true := by
  by_cases hlast : u.y = u.cfg.height - 1
  · simp [State.drawing, hlast]
  · simp [State.drawing, hlast]

theorem DrawingFrame.exec_check (h : DrawingFrame s F u) (hl : u.cfg.legal = true) (hp : u.phase = .check)
    (hx : exec .check u = .next t) : DrawingFrame s F t := by
  obtain ⟨log, hdisp, hlog⟩ := h.rows
  rw [State.rowsDrawn, hp] at hlog
  cases (exec_check_full hl hp h.count).symm.trans hx
  exact { h with place := .inr rfl, rows := ⟨log, hdisp, hlog⟩ }

theorem DrawingFrame.exec_decode (h : DrawingFrame s F u) (hx : exec .decode u = .next t) :
    DrawingFrame s F t := by
  obtain ⟨log, hdisp, hlog⟩ := h.rows
  obtain ⟨hp, row, -, -, -, rfl⟩ := execDecode_next hx
  rw [State.rowsDrawn, hp] at hlog
  exact { h with place := .inr rfl, rows := ⟨log, hdisp, hlog⟩ }

/-- R65: the scanline holds the row of the frame, which goes to the end of `DISPLOG`. -/
theorem DrawingFrame.exec_wrrow (h : DrawingFrame s F u) (hinv : u.Inv) (hx : exec .wrrow u = .next t) :
    DrawingFrame s F t := by
  obtain ⟨log, hdisp, hlog⟩ := h.rows
  obtain ⟨hp, hy, row, hlen, hsl, rfl⟩ := execWrrow_next_withRow hx
  rw [State.rowsDrawn, hp] at hlog
  have hpixel : ∀ x < u.cfg.width, row[x]? = framePixel u.cfg u.fb x u.y :=
    fun x hx => (hsl x hx).symm.trans (hinv.slRow hp x hx)
  have hrows : (nextRow (u.withRow row)).rowsDrawn = u.y + 1 := rowsDrawn_nextRow hy
  exact
    { place := .inr (nextRow_drawing _)
      length := by simpa using h.length
      count := by simpa using h.count
      queue := by simpa using h.queue
      fb := by simpa using h.fb
      rows := ⟨log ++ [⟨0, u.y, u.cfg.width, row⟩], by simp [hdisp],
        by simpa [hrows] using hlog.append_row hlen hpixel⟩
      txlog := by simpa using h.txlog }

theorem DrawingFrame.exec_ack (h : DrawingFrame s F u) (hinv : u.Inv) (hcfg : u.cfg = s.cfg)
    (hp : u.phase = .ack) (hx : exec .ack u = .next t) : AcknowledgedFrame s F t := by
  obtain ⟨log, hdisp, hlog⟩ := h.rows
  rw [State.rowsDrawn, hp] at hlog
  cases (Machine.exec_ack hinv.configLegal hp).symm.trans hx
  exact ⟨⟨h.queue, .inl rfl⟩, h.length, hcfg, ⟨rfl, h.queue⟩, rfl, hcfg ▸ h.fb, hinv.showsFrame hp,
    ⟨log, hdisp, hcfg ▸ hlog⟩, by rw [← hcfg, ← h.txlog]⟩

theorem DrawingFrame.exec (h : DrawingFrame s F u) (hinv : u.Inv) (hcfg : u.cfg = s.cfg) {e : Bool} {i : Instr}
    (hd : decodeSel (selWord u e) = .ok i) (hx : exec i u = .next t) :
    DrawingFrame s F t ∨ AcknowledgedFrame s F t := by
  have hop := (selectWordNamesTheEnabledOperation u e i).mp hd
  have hplace : u.phase = .check ∨ (u.phase = .decode ∨ u.phase = .write) ∨ u.phase = .ack := by
    simpa [State.drawing] using h.place
  obtain hp | (hp | hp) | hp := hplace
  · obtain rfl : i = .check := by simpa [hp] using hop
    exact .inl (h.exec_check hinv.configLegal hp hx)
  · obtain rfl : i = .decode := by simpa [hp] using hop
    exact .inl (h.exec_decode hx)
  · obtain rfl : i = .wrrow := by simpa [hp] using hop
    exact .inl (h.exec_wrrow hinv hx)
  · obtain rfl : i = .ack := by simpa [hp] using hop
    exact .inr (h.exec_ack hinv hcfg hp hx)

/-! ### One step -/

/-- How far the frame `F`, as far as it has arrived since `s`, has come in `u`. -/
inductive FrameProgress (s : State) (F : List Byte) (u : State) : Prop
  | before (hF : F = []) (h : BeforeFrame s u)
  | reading (hF : F ≠ []) (h : ReadingFrame s F u)
  | drawing (h : DrawingFrame s F u)
  | acknowledged (h : AcknowledgedFrame s F u)

theorem FrameProgress.exec (h : FrameProgress s F u) (hinv : u.Inv) (hcfg : u.cfg = s.cfg) {e : Bool} {i : Instr}
    (hprem : premisesAt F.length u (.sequencer e) = true) (hd : decodeSel (selWord u e) = .ok i)
    (hx : exec i u = .next t) : FrameProgress s F t := by
  have hl : u.cfg.legal = true := hinv.configLegal
  cases h with
  | before hF h => exact .before hF (h.exec hl hd hx)
  | reading hF h =>
    obtain rfl := h.eq_rxbyte hinv hF hprem hd
    obtain h | h := h.exec_rxbyte hx
    · exact .reading hF h
    · exact .drawing h
  | drawing h =>
    obtain h | h := h.exec hinv hcfg hd hx
    · exact .drawing h
    · exact .acknowledged h
  | acknowledged h => exact .acknowledged (h.exec hl hd hx).1

theorem FrameProgress.arrival (h : FrameProgress s F u) {b : Byte}
    (hprem : premisesAt F.length u (.linkByte b) = true) : FrameProgress s (F ++ [b]) (rxArrive u b) := by
  obtain ⟨hp, -, hlt⟩ := premisesAt_linkByte hprem
  cases h with
  | before hF h =>
    subst hF
    exact .reading (by simp) ((h.reading hp).arrival hprem)
  | reading hF h => exact .reading (by simp) (h.arrival hprem)
  | drawing h => exact absurd h.length (Nat.ne_of_lt hlt)
  | acknowledged h => exact absurd h.length (Nat.ne_of_lt hlt)

theorem arrival_sequencer (e : Bool) : arrival (.sequencer e) = none := rfl

/-- A turn of `SEQ` runs the operation that the select word names, or holds. -/
theorem stepWith_sequencer_next {e : Bool} (hx : stepWith (.sequencer e) u = .next t) :
    (∃ i, decodeSel (selWord u e) = .ok i ∧ exec i u = .next t) ∨ t = u := by
  obtain ⟨e', i, he, hd, hi⟩ | ⟨b, hb, -⟩ | ht := stepWith_next_cases (by simp) hx
  · cases he
    exact .inl ⟨i, hd, hi⟩
  · cases hb
  · exact .inr ht

theorem AcknowledgedFrame.stepWith (h : AcknowledgedFrame s F u) (hl : u.cfg.legal = true) {e : Bool}
    (hx : stepWith (.sequencer e) u = .next t) : AcknowledgedFrame s F t ∧ t.observe = u.observe := by
  obtain ⟨i, hd, hi⟩ | rfl := stepWith_sequencer_next hx
  · exact h.exec hl hd hi
  · exact ⟨h, rfl⟩

theorem FrameProgress.stepWith (h : FrameProgress s F u) (hinv : u.Inv) (hcfg : u.cfg = s.cfg) {c : Choice}
    (hprem : premisesAt F.length u c = true) (hx : stepWith c u = .next t) :
    FrameProgress s (F ++ (Machine.arrival c).toList) t := by
  cases c with
  | sequencer e =>
    rw [arrival_sequencer, Option.toList_none, List.append_nil]
    obtain ⟨i, hd, hi⟩ | rfl := stepWith_sequencer_next hx
    · exact h.exec hinv hcfg hprem hd hi
    · exact h
  | linkByte b =>
    rw [stepWith_linkByte_next hx]
    exact h.arrival hprem
  | reset => exact absurd rfl (ne_reset_of_premisesAt hprem)

end Sys2Proof.Machine
end

section
/-! PROOF. Runs under the premises S2 to S5 (70_reset_and_hazards.md R102): no byte of a frame is lost, and the frame
is received, drawn and acknowledged once. -/

namespace Sys2Proof.Machine

open Sys2Proof

variable {s t u : State} {F : List Byte}

/-! ### Any schedule -/

/-- What holds along a run from the idle state `s` under the premises, the bytes `F` having arrived. -/
structure FrameRun (s : State) (F : List Byte) (u : State) : Prop where
  inv : u.Inv
  cfg : u.cfg = s.cfg
  progress : FrameProgress s F u

theorem FrameRun.start (hinv : s.Inv) (hidle : s.idle) (hcount : s.rxCount = 0) : FrameRun s [] s :=
  ⟨hinv, rfl, .before rfl ⟨⟨hidle.2, .inr ⟨.inl hidle.1, hcount⟩⟩, hcount, rfl⟩⟩

theorem stepWith_next_cfg {c : Choice} (h : stepWith c u = .next t) : t.cfg = u.cfg :=
  step_next_cfg (s := { u with env := c :: u.env }) h

theorem FrameRun.stepWith (h : FrameRun s F u) {c : Choice} (hprem : premisesAt F.length u c = true)
    (hx : stepWith c u = .next t) : FrameRun s (F ++ (arrival c).toList) t :=
  ⟨h.inv.stepWith hx, (stepWith_next_cfg hx).trans h.cfg, h.progress.stepWith h.inv h.cfg hprem hx⟩

theorem underPremises_cons {n : Nat} {c : Choice} {cs : List Choice} (h : underPremises n (c :: cs) u = true) :
    premisesAt n u c = true ∧
      ∃ t, stepWith c u = .next t ∧ underPremises (n + (arrival c).toList.length) cs t = true := by
  rw [underPremises, Bool.and_eq_true] at h
  obtain ⟨hprem, hrest⟩ := h
  refine ⟨hprem, ?_⟩
  cases hx : stepWith c u with
  | next t => exact ⟨t, rfl, by simpa [hx] using hrest⟩
  | fault f => simp [hx] at hrest
  | refused r => simp [hx] at hrest

theorem arrivals_cons (c : Choice) (cs : List Choice) : arrivals (c :: cs) = (arrival c).toList ++ arrivals cs := by
  cases h : arrival c <;> simp [arrivals, h]

/-- A schedule under the premises runs without a stop and takes the frame through its stages. -/
theorem FrameRun.runChoices {cs : List Choice} (h : FrameRun s F u) (hprem : underPremises F.length cs u = true) :
    ∃ t, runChoices cs u = .next t ∧ FrameRun s (F ++ arrivals cs) t := by
  induction cs generalizing F u with
  | nil => exact ⟨u, rfl, by simpa [arrivals] using h⟩
  | cons c cs ih =>
    obtain ⟨hfirst, v, hx, hrest⟩ := underPremises_cons hprem
    obtain ⟨t, hrun, ht⟩ := ih (h.stepWith hfirst hx) (by rwa [List.length_append])
    exact ⟨t, (runChoices_cons hx cs).trans hrun, by rwa [arrivals_cons, ← List.append_assoc]⟩

/-- S2, S5: one arrival in the read, with room in the queue. -/
theorem step_arrival_premised {b : Byte} (hx : step s = .next t) (hc : nextChoice s = .linkByte b)
    (h2 : s.premiseS2) (h5 : s.premiseS5) :
    t.phase = .read ∧ t.rxq = s.rxq ++ [b] ∧ t.rxCount = s.rxCount ∧ t.fb = s.fb := by
  obtain rfl := step_arrival hc hx
  have hroom : (takeChoice s).rxq.length < (takeChoice s).cfg.rxFifoDepth := by
    simpa [rxAvail] using h5 b hc
  rw [rxArrive_room hroom]
  simpa using h2 b hc

/-- Settles O44: with fewer bytes than a frame the run is in the first two of the stages. -/
theorem premisesKeepEveryByte : Obligations.PremisesKeepEveryByte := by
  refine ⟨fun s t b hx hc => step_arrival_premised hx hc, fun s cs hinv hidle hcount hprem hshort => ?_⟩
  obtain ⟨t, hrun, ht⟩ := (FrameRun.start hinv hidle hcount).runChoices hprem
  rw [List.nil_append] at ht
  have hne : (arrivals cs).length ≠ t.cfg.frameBytes := ht.cfg ▸ Nat.ne_of_lt hshort
  refine ⟨t, hrun, ?_⟩
  cases ht.progress with
  | before hF h => simp [hF, h.count, h.between.queue, h.observe]
  | reading hF h => exact ⟨h.count, h.taken, h.queue, fun _ => h.phase, h.observe⟩
  | drawing h => exact absurd h.length hne
  | acknowledged h => exact absurd h.length hne

/-! ### A whole frame -/

/-- One acknowledgement at most is sent. -/
theorem FrameRun.txlog (h : FrameRun s F u) : u.txlog = s.txlog ∨ u.txlog = s.txlog ++ [s.cfg.ackByte] := by
  cases h.progress with
  | before hF h => exact .inl (congrArg Observation.txlog h.observe)
  | reading hF h => exact .inl (congrArg Observation.txlog h.observe)
  | drawing h => exact .inl h.txlog
  | acknowledged h => exact .inr h.received.ack

/-- With the whole frame arrived, the block does not wait for a byte and takes no `FLUSH` before the
acknowledgement: a read of it has bytes buffered. -/
theorem FrameRun.acknowledged (h : FrameRun s F u) (hF : F.length = s.cfg.frameBytes)
    (hplace : u.idle ∨ u.phase = .flush) : AcknowledgedFrame s F u := by
  have hpos : 0 < s.cfg.frameBytes := frameBytes_pos (h.cfg ▸ h.inv.configLegal)
  cases h.progress with
  | before hnil _ =>
    rw [hnil, List.length_nil] at hF
    omega
  | reading _ hr =>
    have hshort : u.rxCount < s.cfg.frameBytes := h.cfg ▸ h.inv.countShort hr.phase
    obtain ⟨-, hq⟩ | hp := hplace
    · have hall : F.length ≤ u.rxCount := List.drop_eq_nil_iff.mp (hr.queue.symm.trans hq)
      omega
    · simp [hr.phase] at hp
  | drawing hd =>
    have hp : u.phase = .read ∨ u.phase = .flush := hplace.imp_left And.left
    have hstage := hd.place
    obtain hp | hp := hp
    · simp [State.drawing, hp] at hstage
    · simp [State.drawing, hp] at hstage
  | acknowledged h => exact h

/-- Settles O55: with the whole frame arrived, a run that ends idle is in the last of the stages. -/
theorem premisedSchedulesAreOneGoodCycle : Obligations.PremisedSchedulesAreOneGoodCycle := by
  intro s cs hinv hidle hcount hprem hF
  obtain ⟨t, hrun, ht⟩ := (FrameRun.start hinv hidle hcount).runChoices hprem
  rw [List.nil_append] at ht
  exact ⟨t, hrun, ht.inv, ht.txlog, fun hend => (ht.acknowledged hF (.inl hend)).receivedFrame hend.1⟩

/-! ### A fair run -/

theorem arrivals_firstChoices_succ (choices : Nat → Choice) (k : Nat) :
    arrivals (firstChoices choices (k + 1)) =
      arrivals (firstChoices choices k) ++ (arrival (choices k)).toList := by
  rw [firstChoices, List.range_succ, List.map_append, arrivals, List.filterMap_append]
  cases h : arrival (choices k) <;> simp [firstChoices, arrivals, h]

section

variable {choices : Nat → Choice} {states : Nat → State} {n : Nat}

/-- The premises S2 to S5 at every moment of an infinite run. -/
def PremisedRun (choices : Nat → Choice) (states : Nat → State) : Prop :=
  ∀ k, premisesAt (arrivals (firstChoices choices k)).length (states k) (choices k) = true

theorem IsRun.frameRun (hrun : IsRun choices states) (hprem : PremisedRun choices states)
    (h : FrameRun (states 0) [] (states 0)) :
    ∀ k, FrameRun (states 0) (arrivals (firstChoices choices k)) (states k)
  | 0 => h
  | k + 1 => by
    rw [arrivals_firstChoices_succ]
    exact (hrun.frameRun hprem h k).stepWith (hprem k) (hrun k)

/-- S4: once the frame has arrived, no byte comes any more. -/
theorem PremisedRun.arrivals_eq (hprem : PremisedRun choices states) (hcfg : ∀ k, (states k).cfg = (states 0).cfg)
    (hn : (arrivals (firstChoices choices n)).length = (states 0).cfg.frameBytes) {k : Nat} (hk : n ≤ k) :
    arrivals (firstChoices choices k) = arrivals (firstChoices choices n) := by
  induction k, hk using Nat.le_induction with
  | base => rfl
  | succ k hk ih =>
    obtain ⟨e, he⟩ := eq_sequencer_of_premisesAt (hprem k) (by rw [ih, hn, hcfg k])
    rw [arrivals_firstChoices_succ, ih, he, arrival_sequencer, Option.toList_none, List.append_nil]

/-- R76: after the acknowledgement nothing that can be observed changes. -/
theorem IsRun.observe_of_acknowledged (hrun : IsRun choices states) (hlegal : ∀ k, (states k).cfg.legal = true)
    (hturn : ∀ k, n ≤ k → ∃ e, choices k = .sequencer e) (h : AcknowledgedFrame s F (states n)) {k : Nat}
    (hk : n ≤ k) : AcknowledgedFrame s F (states k) ∧ (states k).observe = (states n).observe := by
  induction k, hk using Nat.le_induction with
  | base => exact ⟨h, rfl⟩
  | succ k hk ih =>
    obtain ⟨e, he⟩ := hturn k hk
    obtain ⟨hnext, hobserve⟩ := ih.1.stepWith (hlegal k) (he ▸ hrun k)
    exact ⟨hnext, hobserve.trans ih.2⟩

end

/-- Settles O57: a fair run takes a `FLUSH` after the frame has arrived; the frame is acknowledged by then, and the
`FLUSH` leaves the block idle. -/
theorem fairRunsReceiveTheFrame : Obligations.FairRunsReceiveTheFrame := by
  intro choices states n hrun hfair hinv hidle hcount hprem hn
  have hstages := hrun.frameRun hprem (.start hinv hidle hcount)
  have hcfg (k : Nat) : (states k).cfg = (states 0).cfg := (hstages k).cfg
  have harrived (k : Nat) (hk : n ≤ k) := PremisedRun.arrivals_eq hprem hcfg hn hk
  have hturn (k : Nat) (hk : n ≤ k) : ∃ e, choices k = .sequencer e :=
    eq_sequencer_of_premisesAt (hprem k) (by rw [harrived k hk, hn, hcfg k])
  obtain ⟨m, hm, e, hc, hd⟩ := hfair.takes_flush hrun (hrun.inv hinv) fun k _ => ne_reset_of_premisesAt (hprem k)
  have hflush : exec .flush (states m) = .next (states (m + 1)) :=
    (stepWith_of_decode (c := .sequencer e) hd).symm.trans (hc ▸ hrun m)
  have hack : AcknowledgedFrame (states 0) (arrivals (firstChoices choices n)) (states m) := by
    have hstage := harrived m hm ▸ hstages m
    exact hstage.acknowledged hn (.inr (execFlush_next hflush).1)
  have hend := (hack.exec (hstages m).inv.configLegal hd hflush).1
  refine ⟨m + 1, by omega, hend.receivedFrame (exec_next_phase hflush), fun k hk => ?_⟩
  exact (hrun.observe_of_acknowledged (fun k => (hstages k).inv.configLegal)
    (fun j hj => hturn j (by omega)) hend hk).2

end Sys2Proof.Machine
end
